-- ==== Sys2Proof/Word.lean ====
section
/-! DEFINITION. The word types of the machine and of the text it is loaded from. -/

namespace Sys2Proof

/-- A 32-bit value: a register, an ALU result, an address, a memory cell, an instruction word
(00_scope.md R4: XLEN, PCLEN, MLEN and ILEN are all 32). Bit 31 is the most significant (R5). -/
abbrev Word := BitVec 32

/-- A register index, a 5-bit field: 0 to 31 by construction (10_state.md R12). -/
abbrev RegIdx := BitVec 5

/-- One line of the input stream, as characters; character 0 is the leftmost (00_scope.md R5). -/
abbrev Line := List Char

end Sys2Proof
end

