-- ==== Sys2Proof/Config.lean ====
section
/-! DEFINITION. The implementation parameters of 00_scope.md R4 that have one value.
`N` and the optional `MAX_STEPS` belong to a run and stand in State; `DUMP_WORDS` stays an argument
of `Dump.words`. -/

namespace Sys2Proof.Config

/-- `PC_BASE`: the address of the first instruction and the reset value of the PC. -/
abbrev pcBase : Nat := 96

/-- The distance between two instruction addresses, in bytes (10_state.md R14, R20). -/
abbrev instrBytes : Nat := 4

/-- `BREAK_WORD`: the halt and data-segment sentinel (00_scope.md R4, 30_encoding.md R65). -/
abbrev breakWord : Word := 0xFEDEFFE7#32

/-- `CYCLE_START`: the cycle counter before the first step (10_state.md R18). -/
abbrev cycleStart : Nat := 1

end Sys2Proof.Config
end

