-- ==== Sys2Proof/Syntax.lean ====
section
/-! DEFINITION. The instructions as syntax: one constructor per row of the opcode map
(30_encoding.md R63), the closed enumeration of mnemonics, and the shape of a disassembled line. -/

namespace Sys2Proof

/-- The closed enumeration of twenty decoder outcomes (00_scope.md R1). -/
inductive Mnemonic where
  | brk | nop | b | cbz | cbnz | movz | movk | addi | subi | stur | ldur
  | add | sub | and | orr | eor | lsl | lsr | asr | unknown
  deriving DecidableEq, Repr

/-- A Decoded Instruction (30_encoding.md R66): each constructor carries its format's fields, in the
order of their bits from the left, at the widths of R55 to R60. -/
inductive Instr where
  /-- BREAK, the full word `0xFEDEFFE7` (R65). -/
  | brk
  /-- NOP, the all-zero word (R65). -/
  | nop
  /-- B, format B (R55). -/
  | b (offset : BitVec 26)
  /-- CBZ, format CB (R56). -/
  | cbz (offset : BitVec 19) (cond : RegIdx)
  /-- CBNZ, format CB (R56). -/
  | cbnz (offset : BitVec 19) (cond : RegIdx)
  /-- MOVZ, format IM (R57). -/
  | movz (sc : BitVec 2) (field : BitVec 16) (dest : RegIdx)
  /-- MOVK, format IM (R57). -/
  | movk (sc : BitVec 2) (field : BitVec 16) (dest : RegIdx)
  /-- ADDI, format I (R58). -/
  | addi (imm : BitVec 12) (src1 dest : RegIdx)
  /-- SUBI, format I (R58). -/
  | subi (imm : BitVec 12) (src1 dest : RegIdx)
  /-- STUR, format D (R59); `op2` is extracted and ignored. -/
  | stur (imm : BitVec 9) (op2 : BitVec 2) (src1 dest : RegIdx)
  /-- LDUR, format D (R59); `op2` is extracted and ignored. -/
  | ldur (imm : BitVec 9) (op2 : BitVec 2) (src1 dest : RegIdx)
  /-- ADD, format R (R60); `shamt` is ignored. -/
  | add (src1 : RegIdx) (shamt : BitVec 6) (src2 dest : RegIdx)
  /-- SUB, format R (R60); `shamt` is ignored. -/
  | sub (src1 : RegIdx) (shamt : BitVec 6) (src2 dest : RegIdx)
  /-- AND, format R (R60); `shamt` is ignored. -/
  | and (src1 : RegIdx) (shamt : BitVec 6) (src2 dest : RegIdx)
  /-- ORR, format R (R60); `shamt` is ignored. -/
  | orr (src1 : RegIdx) (shamt : BitVec 6) (src2 dest : RegIdx)
  /-- EOR by its first discriminator, format R (R60, R64); `shamt` is ignored. -/
  | eor (src1 : RegIdx) (shamt : BitVec 6) (src2 dest : RegIdx)
  /-- EOR by its second discriminator (R64): the same mnemonic, fields and meaning. DESIGN CHOICE,
  safe, log entry 10: a constructor per row, so that encoding loses no bit. -/
  | eor2 (src1 : RegIdx) (shamt : BitVec 6) (src2 dest : RegIdx)
  /-- LSL, format R (R60); `src1` is ignored. -/
  | lsl (src1 : RegIdx) (shamt : BitVec 6) (src2 dest : RegIdx)
  /-- LSR, format R (R60); `src1` is ignored. -/
  | lsr (src1 : RegIdx) (shamt : BitVec 6) (src2 dest : RegIdx)
  /-- ASR, format R (R60); `src1` is ignored. -/
  | asr (src1 : RegIdx) (shamt : BitVec 6) (src2 dest : RegIdx)
  /-- UNKNOWN, every word no row matches (R67). DESIGN CHOICE, safe, log entry 9: it keeps the word,
  which no rule reads, so that the word can be encoded back. -/
  | unknown (word : Word)
  deriving DecidableEq, Repr

/-- One pattern row of the opcode map (30_encoding.md R63): the row is selected exactly when
`(w & mask) == value`. -/
structure OpcodeRow where
  mnemonic : Mnemonic
  value    : Word
  mask     : Word
  deriving DecidableEq, Repr

/-- One operand of a disassembled line (30_encoding.md R69, R70). -/
inductive AsmOperand where
  /-- `R<n>` -/
  | reg (r : RegIdx)
  /-- `#<n>` -/
  | imm (v : Int)
  /-- `<n>`, the data field of MOVZ and MOVK -/
  | bare (v : Nat)
  /-- `LSL <n>`, the displayed shift of MOVZ and MOVK -/
  | lslBy (n : Nat)
  /-- `[R<n>, #<imm>]` -/
  | mem (base : RegIdx) (imm : Int)
  deriving DecidableEq, Repr

/-- A disassembled line before it is spelled out: the mnemonic and its operands in printed order. -/
structure AsmLine where
  mnemonic : Mnemonic
  operands : List AsmOperand
  deriving DecidableEq, Repr

end Sys2Proof
end

