-- ==== Sys2Proof/Decode.lean ====
section
/-! DEFINITION. From text and words to Decoded Instructions and back: the field extractor
(30_encoding.md R52, R53), the fields of the six formats (R55 to R60), the decoder (R61), the opcode
map (R63) and an encoder written from the same tables. -/

namespace Sys2Proof

/-! ### Lines of text (00_scope.md R5, 30_encoding.md R50 to R53) -/

/-- The value of one character of a line. -/
def digitOf (c : Char) : Nat := if c = '1' then 1 else 0

/-- The base-2 value of a string of characters, the leftmost most significant (R52). -/
def base2 (l : Line) : Nat := l.foldl (fun acc c => 2 * acc + digitOf c) 0

/-- R50, R51: a line is exactly 32 characters, each 0 or 1. -/
def lineOk (l : Line) : Bool := l.length == 32 && l.all fun c => c == '0' || c == '1'

/-- R50: the word of a line; none for a malformed line, which the loader refuses by name (R51). -/
def wordOfLine (l : Line) : Option Word :=
  if lineOk l then some (BitVec.ofNat 32 (base2 l)) else none

/-- R52: `unsigned(bits, a, b)`, the value of characters `a` to `b-1` of a line. -/
def unsignedField (l : Line) (a b : Nat) : Nat := base2 ((l.take b).drop a)

/-- R53: `signed(bits, a, b)`: the field's leftmost character is its sign. -/
def signedField (l : Line) (a b : Nat) : Int :=
  if l[a]? = some '1' then (unsignedField l a b : Int) - 2 ^ (b - a) else unsignedField l a b

/-! ### Fields of a word (R55 to R60) -/

/-- `sext_32` (00_scope.md R6): a field of any width as a 32-bit two's complement value. -/
def sext32 {n : Nat} (v : BitVec n) : Word := v.signExtend 32

/-- The top bits of a word, which hold the discriminator: `top w n` is `w[31 : 32-n]`. -/
def top (w : Word) (n : Nat) : BitVec n := w.extractLsb' (32 - n) n

/-- Format B `offset`, `w[25:0]`. -/
def offsetB (w : Word) : BitVec 26 := w.extractLsb' 0 26
/-- Format CB `offset`, `w[23:5]`. -/
def offsetCB (w : Word) : BitVec 19 := w.extractLsb' 5 19
/-- Format IM `sc`, `w[22:21]`. -/
def scIM (w : Word) : BitVec 2 := w.extractLsb' 21 2
/-- Format IM `field`, `w[20:5]`. -/
def fieldIM (w : Word) : BitVec 16 := w.extractLsb' 5 16
/-- Format I `imm`, `w[21:10]`. -/
def immI (w : Word) : BitVec 12 := w.extractLsb' 10 12
/-- Format D `imm`, `w[20:12]`. -/
def immD (w : Word) : BitVec 9 := w.extractLsb' 12 9
/-- Format D `op2`, `w[11:10]`. -/
def op2D (w : Word) : BitVec 2 := w.extractLsb' 10 2
/-- Format R `src1`, `w[20:16]`. -/
def src1R (w : Word) : RegIdx := w.extractLsb' 16 5
/-- Format R `shamt`, `w[15:10]`. -/
def shamtR (w : Word) : BitVec 6 := w.extractLsb' 10 6
/-- The register field `w[9:5]`: `src1` of formats I and D, `src2` of format R (90_conflicts.md C13). -/
def regAt5 (w : Word) : RegIdx := w.extractLsb' 5 5
/-- The register field `w[4:0]`: `cond` of format CB, `dest` of formats IM, I, D and R. -/
def regAt0 (w : Word) : RegIdx := w.extractLsb' 0 5

/-! ### The decoder (R61) -/

/-- R61: the decoder, a total function of the word, in the order of the source's table. -/
def decode (w : Word) : Instr :=
  if w = Config.breakWord then .brk
  else if w = 0#32 then .nop
  else if top w 6 = 0b000101#6 then .b (offsetB w)
  else if top w 8 = 0b10110100#8 then .cbz (offsetCB w) (regAt0 w)
  else if top w 8 = 0b10110101#8 then .cbnz (offsetCB w) (regAt0 w)
  else if top w 9 = 0b110100101#9 then .movz (scIM w) (fieldIM w) (regAt0 w)
  else if top w 9 = 0b111100101#9 then .movk (scIM w) (fieldIM w) (regAt0 w)
  else if top w 10 = 0b1001000100#10 then .addi (immI w) (regAt5 w) (regAt0 w)
  else if top w 10 = 0b1101000100#10 then .subi (immI w) (regAt5 w) (regAt0 w)
  else if top w 11 = 0b11111000000#11 then .stur (immD w) (op2D w) (regAt5 w) (regAt0 w)
  else if top w 11 = 0b11111000010#11 then .ldur (immD w) (op2D w) (regAt5 w) (regAt0 w)
  else if top w 11 = 0b10001011000#11 then .add (src1R w) (shamtR w) (regAt5 w) (regAt0 w)
  else if top w 11 = 0b11001011000#11 then .sub (src1R w) (shamtR w) (regAt5 w) (regAt0 w)
  else if top w 11 = 0b10001010000#11 then .and (src1R w) (shamtR w) (regAt5 w) (regAt0 w)
  else if top w 11 = 0b10101010000#11 then .orr (src1R w) (shamtR w) (regAt5 w) (regAt0 w)
  else if top w 11 = 0b11001010000#11 then .eor (src1R w) (shamtR w) (regAt5 w) (regAt0 w)
  else if top w 11 = 0b11101010000#11 then .eor2 (src1R w) (shamtR w) (regAt5 w) (regAt0 w)
  else if top w 11 = 0b11010011011#11 then .lsl (src1R w) (shamtR w) (regAt5 w) (regAt0 w)
  else if top w 11 = 0b11010011010#11 then .lsr (src1R w) (shamtR w) (regAt5 w) (regAt0 w)
  else if top w 11 = 0b11010011100#11 then .asr (src1R w) (shamtR w) (regAt5 w) (regAt0 w)
  else .unknown w

/-- The mnemonic of a Decoded Instruction (R66); both EOR patterns have the one mnemonic (R64). -/
def Instr.mnemonic : Instr → Mnemonic
  | .brk => .brk
  | .nop => .nop
  | .b _ => .b
  | .cbz _ _ => .cbz
  | .cbnz _ _ => .cbnz
  | .movz _ _ _ => .movz
  | .movk _ _ _ => .movk
  | .addi _ _ _ => .addi
  | .subi _ _ _ => .subi
  | .stur _ _ _ _ => .stur
  | .ldur _ _ _ _ => .ldur
  | .add _ _ _ _ => .add
  | .sub _ _ _ _ => .sub
  | .and _ _ _ _ => .and
  | .orr _ _ _ _ => .orr
  | .eor _ _ _ _ => .eor
  | .eor2 _ _ _ _ => .eor
  | .lsl _ _ _ _ => .lsl
  | .lsr _ _ _ _ => .lsr
  | .asr _ _ _ _ => .asr
  | .unknown _ => .unknown

/-! ### The opcode map (R63) -/

/-- R63: the twenty pattern rows; UNKNOWN is the default when none is selected. -/
def opcodeTable : List OpcodeRow :=
  [⟨.brk,  0xFEDEFFE7#32, 0xFFFFFFFF#32⟩, ⟨.nop,  0x00000000#32, 0xFFFFFFFF#32⟩,
   ⟨.b,    0x14000000#32, 0xFC000000#32⟩, ⟨.cbz,  0xB4000000#32, 0xFF000000#32⟩,
   ⟨.cbnz, 0xB5000000#32, 0xFF000000#32⟩, ⟨.movz, 0xD2800000#32, 0xFF800000#32⟩,
   ⟨.movk, 0xF2800000#32, 0xFF800000#32⟩, ⟨.addi, 0x91000000#32, 0xFFC00000#32⟩,
   ⟨.subi, 0xD1000000#32, 0xFFC00000#32⟩, ⟨.stur, 0xF8000000#32, 0xFFE00000#32⟩,
   ⟨.ldur, 0xF8400000#32, 0xFFE00000#32⟩, ⟨.add,  0x8B000000#32, 0xFFE00000#32⟩,
   ⟨.sub,  0xCB000000#32, 0xFFE00000#32⟩, ⟨.and,  0x8A000000#32, 0xFFE00000#32⟩,
   ⟨.orr,  0xAA000000#32, 0xFFE00000#32⟩, ⟨.eor,  0xCA000000#32, 0xFFE00000#32⟩,
   ⟨.eor,  0xEA000000#32, 0xFFE00000#32⟩, ⟨.lsl,  0xD3600000#32, 0xFFE00000#32⟩,
   ⟨.lsr,  0xD3400000#32, 0xFFE00000#32⟩, ⟨.asr,  0xD3800000#32, 0xFFE00000#32⟩]

/-- R63: a row is selected exactly when `(w & mask) == match`. -/
def OpcodeRow.selects (r : OpcodeRow) (w : Word) : Bool := w &&& r.mask == r.value

/-! ### The encoder -/

/-- The word of a format I instruction (R58). -/
def wordI (discr : BitVec 10) (imm : BitVec 12) (src1 dest : RegIdx) : Word :=
  discr ++ (imm ++ (src1 ++ dest))

/-- The word of a format D instruction (R59). -/
def wordD (discr : BitVec 11) (imm : BitVec 9) (op2 : BitVec 2) (src1 dest : RegIdx) : Word :=
  discr ++ (imm ++ (op2 ++ (src1 ++ dest)))

/-- The word of a format R instruction (R60). -/
def wordR (discr : BitVec 11) (src1 : RegIdx) (shamt : BitVec 6) (src2 dest : RegIdx) : Word :=
  discr ++ (src1 ++ (shamt ++ (src2 ++ dest)))

/-- The word of a format CB instruction (R56). -/
def wordCB (discr : BitVec 8) (offset : BitVec 19) (cond : RegIdx) : Word :=
  discr ++ (offset ++ cond)

/-- The word of a format IM instruction (R57). -/
def wordIM (discr : BitVec 9) (sc : BitVec 2) (field : BitVec 16) (dest : RegIdx) : Word :=
  discr ++ (sc ++ (field ++ dest))

/-- The word of a format B instruction (R55). -/
def wordB (discr : BitVec 6) (offset : BitVec 26) : Word := discr ++ offset

/-- The word of a well-formed instruction: its discriminator, then its fields from the left. -/
def encode : Instr → Word
  | .brk => Config.breakWord
  | .nop => 0#32
  | .b offset => wordB 0b000101#6 offset
  | .cbz offset cond => wordCB 0b10110100#8 offset cond
  | .cbnz offset cond => wordCB 0b10110101#8 offset cond
  | .movz sc field dest => wordIM 0b110100101#9 sc field dest
  | .movk sc field dest => wordIM 0b111100101#9 sc field dest
  | .addi imm src1 dest => wordI 0b1001000100#10 imm src1 dest
  | .subi imm src1 dest => wordI 0b1101000100#10 imm src1 dest
  | .stur imm op2 src1 dest => wordD 0b11111000000#11 imm op2 src1 dest
  | .ldur imm op2 src1 dest => wordD 0b11111000010#11 imm op2 src1 dest
  | .add src1 shamt src2 dest => wordR 0b10001011000#11 src1 shamt src2 dest
  | .sub src1 shamt src2 dest => wordR 0b11001011000#11 src1 shamt src2 dest
  | .and src1 shamt src2 dest => wordR 0b10001010000#11 src1 shamt src2 dest
  | .orr src1 shamt src2 dest => wordR 0b10101010000#11 src1 shamt src2 dest
  | .eor src1 shamt src2 dest => wordR 0b11001010000#11 src1 shamt src2 dest
  | .eor2 src1 shamt src2 dest => wordR 0b11101010000#11 src1 shamt src2 dest
  | .lsl src1 shamt src2 dest => wordR 0b11010011011#11 src1 shamt src2 dest
  | .lsr src1 shamt src2 dest => wordR 0b11010011010#11 src1 shamt src2 dest
  | .asr src1 shamt src2 dest => wordR 0b11010011100#11 src1 shamt src2 dest
  | .unknown word => word

/-- What the decoder reads from an instruction numbered as spec/opcode_table.json numbers its bits:
one 32-bit word (R50), bit 0 its least significant; the bits above `nbits` are 0. -/
def decodeTableWord (nbits w : Nat) : Option Instr :=
  if nbits ≤ 32 then some (decode (BitVec.ofNat 32 (w % 2 ^ nbits))) else none

end Sys2Proof
end

