-- ==== Sys2Proof/Machine/State.lean ====
section
/-! DEFINITION. The state of the machine as plain data, the reasons a step or a load can stop, and the
state after reset (10_state.md, 70_reset_and_hazards.md R170). -/

namespace Sys2Proof.Machine

/-- The halt latch (10_state.md R17). -/
inductive RunState where
  /-- no BREAK executed yet -/
  | running
  /-- one BREAK executed -/
  | haltArmed
  /-- two BREAKs executed, terminal -/
  | halted
  deriving DecidableEq, Repr

/-- DMEM (10_state.md R21, 20_memory.md R30): the present addresses, each with its 32-bit word, in
strictly rising order. An address not listed is absent: it has no value. The cells are whole words
because R33 and R35 give every address a 32-bit cell of its own (log entry 1). -/
abbrev Memory := List (Nat × Word)

/-- The canonical form of a memory: addresses strictly rising and inside the 2^32 address space
(20_memory.md R37). No entry can equal what an unlisted address reads as, which is no value. -/
abbrev Memory.wf (m : Memory) : Prop :=
  m.Pairwise (fun c d => c.1 < d.1) ∧ ∀ c ∈ m, c.1 < 2 ^ 32

/-- The memory dump of a record (40_execution_step.md R85): where it starts, and what it shows there
and onward in steps of 4 to the top of the address space, the words shown as 0 left out (log entries 7,
23). -/
structure Dump where
  base  : Word
  cells : Memory
  deriving DecidableEq, Repr

/-- One trace record (40_execution_step.md R85, 60_exceptions.md R160). -/
structure Record where
  cycle : Nat
  line  : AsmLine
  regs  : Vector Word 32
  dump  : Option Dump
  deriving DecidableEq, Repr

/-- Why `step` answers no next state. The hardware raises no fault (60_exceptions.md R150); these three
say that no step is enabled. No instruction's meaning raises one. -/
inductive Fault where
  /-- Raised by `step` when the run has ended by the halt latch: a normal end
  (40_execution_step.md R81, R88). Safe: the hardware takes no step there. Log entry 4. -/
  | runHalted
  /-- Raised by `step` when no instruction stands at the pc: the stream is exhausted, a normal end
  (R81, R88). Safe: the hardware takes no step there. Log entry 4. -/
  | streamExhausted
  /-- Raised by `step` when the host gave MAX_STEPS and that many steps have been taken: the condition
  RunawayExecution (R89). Safe: the state is left as it is. Log entry 5. -/
  | runawayExecution
  deriving DecidableEq, Repr

/-- Why an instruction or a stream is turned away. -/
inductive Refusal where
  /-- An instruction that has no meaning yet; no arm of `exec` answers it. Safe. -/
  | notModelled (mnemonic : String)
  /-- Raised by `loadLines`: a malformed line outside a data segment (70 R174). Safe: no run. -/
  | malformedField
  /-- Raised by `loadLines`: a malformed line inside a data segment (70 R174). Safe: no run. -/
  | dataSegmentError
  /-- Raised by `loadLines`: more lines than `96 + 4*N < 2^32` allows (00_scope.md R4). Safe: no run.
  Log entry 11. -/
  | streamTooLong
  deriving DecidableEq, Repr

/-- The whole state (10_state.md section 1). -/
structure State where
  /-- `x[0]` to `x[31]` (R10). -/
  regs     : Vector Word 32
  /-- The program counter (R13). -/
  pc       : Word
  /-- The halt latch (R17). -/
  runState : RunState
  /-- The cycle counter (R18). -/
  cycle    : Nat
  /-- The data memory (R21). -/
  dmem     : Memory
  /-- `DATA_BASE`, none where it has no value (R19). -/
  dataBase : Option Word
  /-- `HAS_DATA` (R19). -/
  hasData  : Bool
  /-- The instruction stream; `N` is its length (R20). Log entry 2. -/
  imem     : List Word
  /-- The steps MAX_STEPS still allows, none for no cap (40_execution_step.md R89). Log entry 5. -/
  watchdog : Option Nat
  /-- The records emitted so far, the newest first (R85, R160). Log entry 6. -/
  trace    : List Record
  deriving DecidableEq, Repr

/-- The state after reset (70 R170), with nothing loaded: `N = 0`. A loaded stream is
`State.load` (Machine/Loader.lean); log entry 3. -/
def State.reset : State where
  regs     := Vector.replicate 32 0#32
  pc       := 96#32
  runState := .running
  cycle    := Config.cycleStart
  dmem     := []
  dataBase := none
  hasData  := false
  imem     := []
  watchdog := none
  trace    := []

end Sys2Proof.Machine
end

