-- ==== Sys2Proof/Machine/Ops.lean ====
section
/-! DEFINITION. The named operations over registers, data memory, instruction store, pc and halt latch.
There is no exception to take and none to return from (60_exceptions.md R150, R155, R156): the only
event that changes the engine's course is BREAK's latch, `State.latchBreak`. -/

namespace Sys2Proof.Machine

/-! ### Registers (10_state.md R10 to R12): no register is hard-wired -/

/-- Read `x[i]`. -/
def State.readReg (s : State) (i : RegIdx) : Word := s.regs[i.toNat]'i.isLt

/-- Write `x[i]`; register 31 and register 0 like any other (R11). -/
def State.writeReg (s : State) (i : RegIdx) (v : Word) : State :=
  { s with regs := s.regs.set i.toNat v i.isLt }

/-! ### Data memory (20_memory.md R30) -/

/-- The entry of an address. -/
def Memory.lookup : Memory → Nat → Option Word
  | [], _ => none
  | (a, v) :: m, k => if k = a then some v else Memory.lookup m k

/-- Install an entry, keeping the addresses rising. -/
def Memory.insert : Memory → Nat → Word → Memory
  | [], k, v => [(k, v)]
  | (a, u) :: m, k, v =>
    if k < a then (k, v) :: (a, u) :: m
    else if k = a then (k, v) :: m
    else (a, u) :: Memory.insert m k v

/-- `MemRead(a, 4)` with `MemPresent(a)`: the word at a present address, none at an absent one. The full
32-bit address is the key, a multiple of 4 or not (R35). -/
def memRead (m : Memory) (a : Word) : Option Word := m.lookup a.toNat

/-- `MemPresent(a)`. -/
def memPresent (m : Memory) (a : Word) : Bool := (memRead m a).isSome

/-- `MemWrite(a, 4, v)`: `a` becomes present with the word `v`. -/
def memWrite (m : Memory) (a v : Word) : Memory := m.insert a.toNat v

/-- `DumpRead(a)`: 0 for an absent address, and no entry is made. -/
def dumpRead (m : Memory) (a : Word) : Word := (memRead m a).getD 0#32

/-- The one data write of a step. -/
def State.store (s : State) (a v : Word) : State := { s with dmem := memWrite s.dmem a v }

/-! ### Instruction store (10_state.md R15, R20) -/

/-- The byte address of the line with 0-based index `k`. -/
def lineAddr (k : Nat) : Nat := Config.pcBase + Config.instrBytes * k

/-- `Fetch(a)`: the word standing at an instruction address, none where `a` is not mapped. -/
def State.fetch (s : State) (a : Word) : Option Word :=
  if Config.pcBase ≤ a.toNat ∧ (a.toNat - Config.pcBase) % Config.instrBytes = 0
  then s.imem[(a.toNat - Config.pcBase) / Config.instrBytes]? else none

/-- `Mapped(a)`: an instruction stands at `a`. -/
def State.mapped (s : State) (a : Word) : Bool := (s.fetch a).isSome

/-! ### Program counter (10_state.md R14, 42_branch.md R105) -/

/-- The sequential next pc, `pc + 4`. -/
def State.advance (s : State) : State := { s with pc := s.pc + 4#32 }

/-- `BranchTo` (R105), for an offset already sign-extended: the target is relative to the branch's own
address, and the pc is redirected only when the branch is taken and the target is mapped. -/
def State.branchTo (s : State) (offset : Word) (taken : Bool) : State :=
  let target := s.pc + 4#32 * offset
  if taken && s.mapped target then { s with pc := target } else s.advance

/-! ### Halt latch (10_state.md R17, 41 R100) -/

/-- The latch after a BREAK: it arms, then halts, and never moves backward. -/
def RunState.afterBreak : RunState → RunState
  | .running => .haltArmed
  | .haltArmed => .halted
  | .halted => .halted

/-- BREAK's one state change. DEDUCED, safe, log entry 12: from Halted, where no step is enabled,
the latch stays Halted. -/
def State.latchBreak (s : State) : State := { s with runState := s.runState.afterBreak }

end Sys2Proof.Machine
end

