-- ==== Sys2Proof/Machine/Flags.lean ====
section
/-! DEFINITION. The hardware has no status flags (10_state.md R16): the only condition an instruction
tests is a general register against zero, computed when it is tested and recorded nowhere. -/

namespace Sys2Proof.Machine

/-- The test of CBZ and CBNZ (42_branch.md R107, R108): all 32 bits of `x[cond]` are 0. -/
def State.regIsZero (s : State) (cond : RegIdx) : Bool := s.readReg cond == 0#32

end Sys2Proof.Machine
end

