-- ==== Sys2Proof/Machine/Branch.lean ====
section
/-! DEFINITION. Control transfer: B, CBZ, CBNZ (42_branch.md). -/

namespace Sys2Proof.Machine

/-- R106. -/
def execB (offset : BitVec 26) (s : State) : Host.Outcome State Fault Refusal :=
  .next (s.branchTo (sext32 offset) true)

/-- R107: taken when all 32 bits of `x[cond]` are 0. -/
def execCbz (offset : BitVec 19) (cond : RegIdx) (s : State) : Host.Outcome State Fault Refusal :=
  .next (s.branchTo (sext32 offset) (s.regIsZero cond))

/-- R108: taken when some bit of `x[cond]` is not 0. -/
def execCbnz (offset : BitVec 19) (cond : RegIdx) (s : State) : Host.Outcome State Fault Refusal :=
  .next (s.branchTo (sext32 offset) (!s.regIsZero cond))

end Sys2Proof.Machine
end

