-- ==== Sys2Proof/Machine/Operands.lean ====
section
/-! DEFINITION. The operand forms and the arithmetic and logic unit: the effective address
(45_load_store.md R120), the operations of 44, 46 and 47, all on 32-bit values modulo 2^32
(46_register_arith_logic.md R130). -/

namespace Sys2Proof.Machine

/-- R120: the effective address of STUR and LDUR; the immediate counts words. -/
def State.effAddr (s : State) (imm : BitVec 9) (src1 : RegIdx) : Word :=
  s.readReg src1 + 4#32 * sext32 imm

/-- Addition of ADDI and ADD (R115, R125). -/
def aluAdd (a b : Word) : Word := a + b

/-- Subtraction of SUBI and SUB: the first operand is the minuend (R116, R126). -/
def aluSub (a b : Word) : Word := a - b

/-- R127. -/
def aluAnd (a b : Word) : Word := a &&& b

/-- R128. -/
def aluOrr (a b : Word) : Word := a ||| b

/-- R129. -/
def aluEor (a b : Word) : Word := a ^^^ b

/-- `shl` (47_shift.md R138): the amount is used in full. -/
def shl (v : Word) (amount : BitVec 6) : Word := v <<< amount.toNat

/-- `lshr` (R138): zeros enter at bit 31. -/
def lshr (v : Word) (amount : BitVec 6) : Word := v >>> amount.toNat

/-- `ashr` (R138): copies of bit 31 enter at the top. -/
def ashr (v : Word) (amount : BitVec 6) : Word := v.sshiftRight amount.toNat

/-- The shape of ADDI and SUBI (44_immediate_arith.md): one register and a sign-extended immediate. -/
def State.immediateOp (op : Word → Word → Word) (imm : BitVec 12) (src1 dest : RegIdx) (s : State) :
    State :=
  (s.writeReg dest (op (s.readReg src1) (sext32 imm))).advance

/-- The shape of ADD to EOR (46): `src1` is `w[20:16]`, `src2` is `w[9:5]`, `src1` the left operand. -/
def State.registerOp (op : Word → Word → Word) (src1 src2 dest : RegIdx) (s : State) : State :=
  (s.writeReg dest (op (s.readReg src1) (s.readReg src2))).advance

/-- The shape of LSL, LSR and ASR (47): the register `src2` shifted by the immediate `shamt`. -/
def State.shiftOp (op : Word → BitVec 6 → Word) (shamt : BitVec 6) (src2 dest : RegIdx) (s : State) :
    State :=
  (s.writeReg dest (op (s.readReg src2) shamt)).advance

end Sys2Proof.Machine
end

