-- ==== Sys2Proof/Machine/Immediate.lean ====
section
/-! DEFINITION. Immediate arithmetic: ADDI, SUBI (44_immediate_arith.md). -/

namespace Sys2Proof.Machine

/-- R115: the immediate is sign-extended. -/
def execAddi (imm : BitVec 12) (src1 dest : RegIdx) (s : State) : Host.Outcome State Fault Refusal :=
  .next (s.immediateOp aluAdd imm src1 dest)

/-- R116: the immediate is sign-extended, then subtracted. -/
def execSubi (imm : BitVec 12) (src1 dest : RegIdx) (s : State) : Host.Outcome State Fault Refusal :=
  .next (s.immediateOp aluSub imm src1 dest)

end Sys2Proof.Machine
end

