-- ==== Sys2Proof/Machine/LoadStore.lean ====
section
/-! DEFINITION. Loads and stores: STUR, LDUR (45_load_store.md), and the data-memory port of
20_memory.md R31 for a reader who wants signals. -/

namespace Sys2Proof.Machine

/-- R121: the field `dest` names the register whose value is stored. -/
def execStur (imm : BitVec 9) (_op2 : BitVec 2) (src1 dest : RegIdx) (s : State) :
    Host.Outcome State Fault Refusal :=
  .next (s.store (s.effAddr imm src1) (s.readReg dest)).advance

/-- R122: a present cell is loaded; an absent one leaves `x[dest]` as it was and stays absent. -/
def execLdur (imm : BitVec 9) (_op2 : BitVec 2) (src1 dest : RegIdx) (s : State) :
    Host.Outcome State Fault Refusal :=
  match memRead s.dmem (s.effAddr imm src1) with
  | some v => .next (s.writeReg dest v).advance
  | none => .next s.advance

/-- The request side of the data port (20_memory.md R31): `wdata` is meaningful when `we`. -/
structure MemRequest where
  addr  : Word
  we    : Bool
  wdata : Word
  deriving DecidableEq, Repr

/-- The one request an instruction makes, at most (R31, R32): STUR writes, LDUR reads, no other
instruction reaches data memory. `wdata` of a read is not used and is 0 here. -/
def memRequest (i : Instr) (s : State) : Option MemRequest :=
  match i with
  | .stur imm _ src1 dest => some ⟨s.effAddr imm src1, true, s.readReg dest⟩
  | .ldur imm _ src1 _ => some ⟨s.effAddr imm src1, false, 0#32⟩
  | .brk | .nop | .unknown _ | .b _ | .cbz _ _ | .cbnz _ _ | .movz _ _ _ | .movk _ _ _
  | .addi _ _ _ | .subi _ _ _ | .add _ _ _ _ | .sub _ _ _ _ | .and _ _ _ _ | .orr _ _ _ _
  | .eor _ _ _ _ | .eor2 _ _ _ _ | .lsl _ _ _ _ | .lsr _ _ _ _ | .asr _ _ _ _ => none

end Sys2Proof.Machine
end

