-- ==== Sys2Proof/Machine/MoveWide.lean ====
section
/-! DEFINITION. MOVZ and MOVK, which are decoded and displayed and write no register
(43_move_wide.md; 93_implementation_defined.md U6). -/

namespace Sys2Proof.Machine

/-- R110: `x[dest]` is not written. -/
def execMovz (_sc : BitVec 2) (_field : BitVec 16) (_dest : RegIdx) (s : State) :
    Host.Outcome State Fault Refusal := .next s.advance

/-- R111: `x[dest]` is not written. -/
def execMovk (_sc : BitVec 2) (_field : BitVec 16) (_dest : RegIdx) (s : State) :
    Host.Outcome State Fault Refusal := .next s.advance

end Sys2Proof.Machine
end

