-- ==== Sys2Proof/Machine/RegArith.lean ====
section
/-! DEFINITION. Register arithmetic and logic: ADD, SUB, AND, ORR, EOR (46_register_arith_logic.md).
`shamt` is ignored by all. -/

namespace Sys2Proof.Machine

/-- R125. -/
def execAdd (src1 : RegIdx) (_shamt : BitVec 6) (src2 dest : RegIdx) (s : State) :
    Host.Outcome State Fault Refusal := .next (s.registerOp aluAdd src1 src2 dest)

/-- R126: `x[src1] - x[src2]`, `src1` the field `w[20:16]` (decision D7). -/
def execSub (src1 : RegIdx) (_shamt : BitVec 6) (src2 dest : RegIdx) (s : State) :
    Host.Outcome State Fault Refusal := .next (s.registerOp aluSub src1 src2 dest)

/-- R127. -/
def execAnd (src1 : RegIdx) (_shamt : BitVec 6) (src2 dest : RegIdx) (s : State) :
    Host.Outcome State Fault Refusal := .next (s.registerOp aluAnd src1 src2 dest)

/-- R128. -/
def execOrr (src1 : RegIdx) (_shamt : BitVec 6) (src2 dest : RegIdx) (s : State) :
    Host.Outcome State Fault Refusal := .next (s.registerOp aluOrr src1 src2 dest)

/-- R129, by the first discriminator. -/
def execEor (src1 : RegIdx) (_shamt : BitVec 6) (src2 dest : RegIdx) (s : State) :
    Host.Outcome State Fault Refusal := .next (s.registerOp aluEor src1 src2 dest)

/-- R129, by the second discriminator (30_encoding.md R64). -/
def execEor2 (src1 : RegIdx) (_shamt : BitVec 6) (src2 dest : RegIdx) (s : State) :
    Host.Outcome State Fault Refusal := .next (s.registerOp aluEor src1 src2 dest)

end Sys2Proof.Machine
end

