-- ==== Sys2Proof/Machine/Shift.lean ====
section
/-! DEFINITION. Shifts: LSL, LSR, ASR (47_shift.md). `src1` is ignored by all. -/

namespace Sys2Proof.Machine

/-- R135. -/
def execLsl (_src1 : RegIdx) (shamt : BitVec 6) (src2 dest : RegIdx) (s : State) :
    Host.Outcome State Fault Refusal := .next (s.shiftOp shl shamt src2 dest)

/-- R136. -/
def execLsr (_src1 : RegIdx) (shamt : BitVec 6) (src2 dest : RegIdx) (s : State) :
    Host.Outcome State Fault Refusal := .next (s.shiftOp lshr shamt src2 dest)

/-- R137. -/
def execAsr (_src1 : RegIdx) (shamt : BitVec 6) (src2 dest : RegIdx) (s : State) :
    Host.Outcome State Fault Refusal := .next (s.shiftOp ashr shamt src2 dest)

end Sys2Proof.Machine
end

