-- ==== Sys2Proof/Machine/System.lean ====
section
/-! DEFINITION. BREAK, NOP and UNKNOWN (41_system_break_nop_unknown.md). -/

namespace Sys2Proof.Machine

/-- R100: the halt latch moves, and the pc advances in both transitions. -/
def execBrk (s : State) : Host.Outcome State Fault Refusal := .next s.latchBreak.advance

/-- R101. -/
def execNop (s : State) : Host.Outcome State Fault Refusal := .next s.advance

/-- R102: a no-operation, whatever the word. -/
def execUnknown (_word : Word) (s : State) : Host.Outcome State Fault Refusal := .next s.advance

end Sys2Proof.Machine
end

