-- ==== Sys2Proof/Machine/Dispatch.lean ====
section
/-! DEFINITION. Phase 2 of a step (40_execution_step.md R82, R83): the instruction selects exactly one
meaning. The state answered has the pc that the step will take. -/

namespace Sys2Proof.Machine

def exec (i : Instr) (s : State) : Host.Outcome State Fault Refusal :=
  match i with
  -- 41
  | .brk => Sys2Proof.Machine.execBrk s
  | .nop => Sys2Proof.Machine.execNop s
  -- 42
  | .b offset => Sys2Proof.Machine.execB offset s
  | .cbz offset cond => Sys2Proof.Machine.execCbz offset cond s
  | .cbnz offset cond => Sys2Proof.Machine.execCbnz offset cond s
  -- 43
  | .movz sc field dest => Sys2Proof.Machine.execMovz sc field dest s
  | .movk sc field dest => Sys2Proof.Machine.execMovk sc field dest s
  -- 44
  | .addi imm src1 dest => Sys2Proof.Machine.execAddi imm src1 dest s
  | .subi imm src1 dest => Sys2Proof.Machine.execSubi imm src1 dest s
  -- 45
  | .stur imm op2 src1 dest => Sys2Proof.Machine.execStur imm op2 src1 dest s
  | .ldur imm op2 src1 dest => Sys2Proof.Machine.execLdur imm op2 src1 dest s
  -- 46
  | .add src1 shamt src2 dest => Sys2Proof.Machine.execAdd src1 shamt src2 dest s
  | .sub src1 shamt src2 dest => Sys2Proof.Machine.execSub src1 shamt src2 dest s
  | .and src1 shamt src2 dest => Sys2Proof.Machine.execAnd src1 shamt src2 dest s
  | .orr src1 shamt src2 dest => Sys2Proof.Machine.execOrr src1 shamt src2 dest s
  | .eor src1 shamt src2 dest => Sys2Proof.Machine.execEor src1 shamt src2 dest s
  | .eor2 src1 shamt src2 dest => Sys2Proof.Machine.execEor2 src1 shamt src2 dest s
  -- 47
  | .lsl src1 shamt src2 dest => Sys2Proof.Machine.execLsl src1 shamt src2 dest s
  | .lsr src1 shamt src2 dest => Sys2Proof.Machine.execLsr src1 shamt src2 dest s
  | .asr src1 shamt src2 dest => Sys2Proof.Machine.execAsr src1 shamt src2 dest s
  -- 41, the decoder's default
  | .unknown word => Sys2Proof.Machine.execUnknown word s

end Sys2Proof.Machine
end

