-- ==== Sys2Proof/Machine/Loader.lean ====
section
/-! DEFINITION. The reset procedure: the data segment loader (70_reset_and_hazards.md R172, R173), a
stream of words, and a stream of lines of text (R171, R174). -/

namespace Sys2Proof.Machine

/-- What the loader carries along its one scan of the stream (R172, R173). -/
structure LoaderState where
  inData   : Bool
  dataBase : Option Word
  dmem     : Memory
  stored   : Bool
  deriving DecidableEq, Repr

/-- Before the scan. -/
def LoaderState.start : LoaderState := ⟨false, none, [], false⟩

/-- The data address of the line with 0-based index `k`: its own stream address (R172, decision D13). -/
def dataAddr (k : Nat) : Word := BitVec.ofNat 32 (lineAddr k)

/-- One line of the scan (R172): a sentinel toggles the flag and, on entry, records the address of the
line after it; any other line inside a segment is stored. -/
def LoaderState.scanLine (l : LoaderState) (k : Nat) (w : Word) : LoaderState :=
  if w = Config.breakWord then
    if l.inData then { l with inData := false }
    else { l with inData := true, dataBase := some (dataAddr (k + 1)) }
  else if l.inData then { l with dmem := memWrite l.dmem (dataAddr k) w, stored := true }
  else l

/-- The scan from the line of index `k` on. -/
def LoaderState.scan : LoaderState → Nat → List Word → LoaderState
  | l, _, [] => l
  | l, k, w :: ws => (l.scanLine k w).scan (k + 1) ws

/-- The loader's whole scan of a stream. -/
def scanStream (stream : List Word) : LoaderState := LoaderState.start.scan 0 stream

/-- The state after reset with a stream loaded (R170). -/
def State.load (stream : List Word) : State :=
  { State.reset with
    imem     := stream
    dmem     := (scanStream stream).dmem
    dataBase := (scanStream stream).dataBase
    hasData  := (scanStream stream).stored }

/-- The host's optional MAX_STEPS (40_execution_step.md R89), given before the first step. -/
def State.withMaxSteps (s : State) (maxSteps : Option Nat) : State := { s with watchdog := maxSteps }

/-- Turn every line into a word, or name the first malformed one (R174): inside a data segment
DataSegmentError, elsewhere MalformedField. -/
def wordsOfLines : Bool → List Line → Except Refusal (List Word)
  | _, [] => .ok []
  | inData, l :: ls =>
    match wordOfLine l with
    | none => .error (if inData then .dataSegmentError else .malformedField)
    | some w =>
      match wordsOfLines (if w = Config.breakWord then !inData else inData) ls with
      | .error r => .error r
      | .ok ws => .ok (w :: ws)

/-- The reset procedure from the host's lines (R171): a refusal, or the state before the first step.
DESIGN CHOICE, safe, log entry 11: a stream over the bound of 00_scope.md R4 is refused too. -/
def loadLines (lines : List Line) : Host.Outcome State Fault Refusal :=
  match wordsOfLines false lines with
  | .error r => .refused r
  | .ok stream => if lineAddr stream.length < 2 ^ 32 then .next (State.load stream) else .refused .streamTooLong

end Sys2Proof.Machine
end

