-- ==== Sys2Proof/Machine/Disasm.lean ====
section
/-! DEFINITION. The disassembler (30_encoding.md R69 to R72): operand arithmetic, spelling, listing. -/

namespace Sys2Proof.Machine

/-- The displayed target of a branch (R69 (b)): `PC + offset * 4` on integers, without the modulo of the
execution rule. DEDUCED, unsafe for the displayed text only, log entry 8. -/
def shownTarget {n : Nat} (pc : Word) (offset : BitVec n) : Int := (pc.toNat : Int) + 4 * offset.toInt

/-- `Disasm(instr, pc)` (R70), the operands in printed order; `pc` is the instruction's own address. -/
def disasm (i : Instr) (pc : Word) : AsmLine :=
  match i with
  | .brk => ⟨.brk, []⟩
  | .nop => ⟨.nop, []⟩
  | .b offset => ⟨.b, [.imm (shownTarget pc offset)]⟩
  | .cbz offset cond => ⟨.cbz, [.reg cond, .imm (shownTarget pc offset)]⟩
  | .cbnz offset cond => ⟨.cbnz, [.reg cond, .imm (shownTarget pc offset)]⟩
  | .movz sc field dest => ⟨.movz, [.reg dest, .bare field.toNat, .lslBy (16 * sc.toNat)]⟩
  | .movk sc field dest => ⟨.movk, [.reg dest, .bare field.toNat, .lslBy (16 * sc.toNat)]⟩
  | .addi imm src1 dest => ⟨.addi, [.reg dest, .reg src1, .imm imm.toInt]⟩
  | .subi imm src1 dest => ⟨.subi, [.reg dest, .reg src1, .imm imm.toInt]⟩
  | .stur imm _ src1 dest => ⟨.stur, [.reg dest, .mem src1 imm.toInt]⟩
  | .ldur imm _ src1 dest => ⟨.ldur, [.reg dest, .mem src1 imm.toInt]⟩
  | .add src1 _ src2 dest => ⟨.add, [.reg dest, .reg src1, .reg src2]⟩
  | .sub src1 _ src2 dest => ⟨.sub, [.reg dest, .reg src1, .reg src2]⟩
  | .and src1 _ src2 dest => ⟨.and, [.reg dest, .reg src1, .reg src2]⟩
  | .orr src1 _ src2 dest => ⟨.orr, [.reg dest, .reg src1, .reg src2]⟩
  | .eor src1 _ src2 dest => ⟨.eor, [.reg dest, .reg src1, .reg src2]⟩
  | .eor2 src1 _ src2 dest => ⟨.eor, [.reg dest, .reg src1, .reg src2]⟩
  | .lsl _ shamt src2 dest => ⟨.lsl, [.reg dest, .reg src2, .imm shamt.toNat]⟩
  | .lsr _ shamt src2 dest => ⟨.lsr, [.reg dest, .reg src2, .imm shamt.toNat]⟩
  | .asr _ shamt src2 dest => ⟨.asr, [.reg dest, .reg src2, .imm shamt.toNat]⟩
  | .unknown _ => ⟨.unknown, []⟩

/-- The printed name of a mnemonic; UNKNOWN prints as a sentence of its own (R69 (e)). -/
def mnemonicText : Mnemonic → String
  | .brk => "BREAK"
  | .nop => "NOP"
  | .b => "B"
  | .cbz => "CBZ"
  | .cbnz => "CBNZ"
  | .movz => "MOVZ"
  | .movk => "MOVK"
  | .addi => "ADDI"
  | .subi => "SUBI"
  | .stur => "STUR"
  | .ldur => "LDUR"
  | .add => "ADD"
  | .sub => "SUB"
  | .and => "AND"
  | .orr => "ORR"
  | .eor => "EOR"
  | .lsl => "LSL"
  | .lsr => "LSR"
  | .asr => "ASR"
  | .unknown => "UNKNOWN INSTRUCTION"

/-- A number in decimal, a minus sign for a negative value (R69 (a)). -/
def decimal : Int → String
  | .ofNat n => Nat.repr n
  | .negSucc n => "-" ++ Nat.repr (n + 1)

/-- The spelling of one operand (R69, R70). -/
def operandText : AsmOperand → String
  | .reg r => "R" ++ Nat.repr r.toNat
  | .imm v => "#" ++ decimal v
  | .bare v => Nat.repr v
  | .lslBy n => "LSL " ++ Nat.repr n
  | .mem base imm => "[R" ++ Nat.repr base.toNat ++ ", #" ++ decimal imm ++ "]"

/-- Operands separated by a comma and a space. -/
def operandsText : List AsmOperand → String
  | [] => ""
  | [o] => operandText o
  | o :: os => operandText o ++ ", " ++ operandsText os

/-- The text of a disassembled line (R70). -/
def lineText (l : AsmLine) : String :=
  match l.operands with
  | [] => mnemonicText l.mnemonic
  | os => mnemonicText l.mnemonic ++ " " ++ operandsText os

/-- The listing (R72): each line of the stream beside its disassembly at its own address. How a data
line is shown the spec leaves to the I/O layer; here it is shown as decoded. -/
def listingFrom : Word → List Word → List (Word × AsmLine)
  | _, [] => []
  | a, w :: ws => (w, disasm (decode w) a) :: listingFrom (a + 4#32) ws

/-- The listing of a whole stream, from address 96. -/
def listing (stream : List Word) : List (Word × AsmLine) := listingFrom 96#32 stream

end Sys2Proof.Machine
end

