-- ==== Sys2Proof/Machine/Trace.lean ====
section
/-! DEFINITION. The snapshot and the end of a step (40_execution_step.md R85, R86, R90). -/

namespace Sys2Proof.Machine

/-- The address of the `k`-th word of a dump, `DATA_BASE + 4*k` modulo 2^32 (R85, 00_scope.md R6,
20_memory.md R37). -/
def dumpAddr (base : Word) (k : Nat) : Word := base + 4#32 * BitVec.ofNat 32 k

/-- How many words a dump from `base` can have: the data addresses `base`, `base + 4`, ... up to the top of
the 2^32 address space, "from the base address onward" (R85). After them the sum would wrap to the addresses
below `base`, which a dump never shows (45_load_store.md R121 (c)). DEDUCED, log entry 23. -/
def dumpLen (base : Word) : Nat := (2 ^ 32 - base.toNat + 3) / 4

/-- Whether the dump from `base` shows a value other than 0 at this cell: the cell stands at `base`,
`base + 4`, ... and does not hold 0 (R85); never below `base` (45_load_store.md R121 (c)). -/
def shownBy (base : Word) (c : Nat × Word) : Bool :=
  decide (base.toNat ≤ c.1) && (c.1 - base.toNat) % 4 == 0 && c.2 != 0#32

/-- The dump of a state's data memory: present only when HAS_DATA, from DATA_BASE onward (R85). -/
def State.dump (s : State) : Option Dump :=
  if s.hasData then s.dataBase.map fun base => ⟨base, s.dmem.filter (shownBy base)⟩ else none

/-- The `k`-th word of a dump, where the dump has one: `DumpRead(DATA_BASE + 4*k)`, 0 where the memory has
no entry (R85). -/
def Dump.word (d : Dump) (k : Nat) : Option Word :=
  if k < dumpLen d.base then some (dumpRead d.cells (dumpAddr d.base k)) else none

/-- The words a dump prints, for the I/O layer's parameter `DUMP_WORDS` (92 D16). -/
def Dump.words (d : Dump) (dumpWords : Nat) : List Word := (List.range dumpWords).filterMap d.word

/-- The text of a record's disassembled line. -/
def Record.text (r : Record) : String := lineText r.line

/-- The record of a step (R85): the counter and the pc as the instruction was issued, the registers and
the memory as the step leaves them. -/
def snapshot (i : Instr) (issued after : State) : Record where
  cycle := issued.cycle
  line  := disasm i issued.pc
  regs  := after.regs
  dump  := after.dump

/-- Phases 3 and 4 around the dispatched state (R82): the record is emitted, the counter rises by 1, and
the watchdog has one step less to allow. -/
def retire (i : Instr) (issued after : State) : State :=
  { after with
    trace    := snapshot i issued after :: after.trace
    cycle    := after.cycle + 1
    watchdog := after.watchdog.map (· - 1) }

/-- The records emitted, in the order of emission (70 R175). -/
def State.records (s : State) : List Record := s.trace.reverse

end Sys2Proof.Machine
end

