-- ==== Sys2Proof/Machine/Step.lean ====
section
/-! DEFINITION. One step of the engine (40_execution_step.md R81, R82, R89). -/

namespace Sys2Proof.Machine

/-- One step. No step is enabled in Halted or where no instruction stands at the pc (R81); the watchdog,
where the host set one, forbids the step after the last it allows (R89). An enabled step decodes the
fetched word, dispatches it, emits the record and advances (R82). -/
def step (s : State) : Host.Outcome State Fault Refusal :=
  match s.runState with
  | .halted => .fault .runHalted
  | .running | .haltArmed =>
    match s.fetch s.pc with
    | none => .fault .streamExhausted
    | some w =>
      match s.watchdog with
      | some 0 => .fault .runawayExecution
      | _ =>
        match exec (decode w) s with
        | .next t => .next (retire (decode w) s t)
        | .fault f => .fault f
        | .refused r => .refused r

/-- A stream with the word `w` at index `k`, NOP words filling any gap below it. -/
def placeWord (stream : List Word) (k : Nat) (w : Word) : List Word :=
  if k < stream.length then stream.set k w
  else stream ++ List.replicate (k - stream.length) 0#32 ++ [w]

/-- `s` with the instruction `w` standing where `step` fetches next, and everything that the fetch needs:
where the pc is an instruction address the stream is extended to it, elsewhere the pc becomes 96; a
halted latch is released, and a spent watchdog taken off. It stands for the host's load (log entry 3). -/
def State.withFetchWord (s : State) (nbits w : Nat) : State :=
  let word : Word := BitVec.ofNat 32 (w % 2 ^ nbits)
  let pc : Word := if Config.pcBase ≤ s.pc.toNat ∧ (s.pc.toNat - Config.pcBase) % 4 = 0 then s.pc else 96#32
  { s with
    pc       := pc
    imem     := placeWord s.imem ((pc.toNat - Config.pcBase) / 4) word
    runState := if s.runState = .halted then .running else s.runState
    watchdog := if s.watchdog = some 0 then none else s.watchdog }

end Sys2Proof.Machine
end

