-- ==== Sys2Proof/WellFormed.lean ====
section
/-! DEFINITION. Which instructions as syntax stand for a word. -/

namespace Sys2Proof

/-- The field widths of R55 to R60 are in the types, and within a matched row every bit pattern is
legal (30_encoding.md R67); so the one check left is that UNKNOWN holds only a word that no row of the
opcode map selects (R67). -/
def Instr.wellFormed : Instr → Bool
  | .brk | .nop => true
  | .b _ | .cbz _ _ | .cbnz _ _ => true
  | .movz _ _ _ | .movk _ _ _ => true
  | .addi _ _ _ | .subi _ _ _ => true
  | .stur _ _ _ _ | .ldur _ _ _ _ => true
  | .add _ _ _ _ | .sub _ _ _ _ | .and _ _ _ _ | .orr _ _ _ _ => true
  | .eor _ _ _ _ | .eor2 _ _ _ _ => true
  | .lsl _ _ _ _ | .lsr _ _ _ _ | .asr _ _ _ _ => true
  | .unknown word => !(opcodeTable.any fun r => r.selects word)

end Sys2Proof
end

