-- ==== Sys2Proof/Safety.lean ====
section
/-! DEFINITION. What statements about the machine are made of: when a step is enabled, what an
instruction's meaning leaves alone, the invariant of a run, and the part of the state a program acts on. -/

namespace Sys2Proof.Machine

/-- R81, with the host's optional watchdog (R89): a step is enabled. -/
abbrev State.Enabled (s : State) : Prop :=
  s.runState ≠ .halted ∧ s.mapped s.pc = true ∧ s.watchdog ≠ some 0

/-- No register but `dest` differs. -/
def OtherRegsKept (dest : RegIdx) (s t : State) : Prop := ∀ r : RegIdx, r ≠ dest → t.readReg r = s.readReg r

/-- No register differs. -/
def RegsKept (s t : State) : Prop := ∀ r : RegIdx, t.readReg r = s.readReg r

/-- Every address reads as before, present or absent. -/
def MemKept (s t : State) : Prop := ∀ a : Word, memRead t.dmem a = memRead s.dmem a

/-- Every address but `a` reads as before. -/
def OtherMemKept (a : Word) (s t : State) : Prop := ∀ b : Word, b ≠ a → memRead t.dmem b = memRead s.dmem b

/-- The rest of the state, but for the halt latch: the stream, the loader's results, the counter, the
watchdog and the records. -/
def RestKept (s t : State) : Prop :=
  t.imem = s.imem ∧ t.dataBase = s.dataBase ∧ t.hasData = s.hasData ∧ t.cycle = s.cycle ∧
  t.watchdog = s.watchdog ∧ t.trace = s.trace

/-- An instruction that writes the register `dest` and nothing else but the pc, which advances. -/
def OnlyRegWritten (dest : RegIdx) (s t : State) : Prop :=
  OtherRegsKept dest s t ∧ MemKept s t ∧ t.runState = s.runState ∧ RestKept s t ∧ t.pc = s.pc + 4#32

/-- An instruction that changes nothing but the pc. -/
def OnlyPcChanged (s t : State) : Prop :=
  RegsKept s t ∧ MemKept s t ∧ t.runState = s.runState ∧ RestKept s t

/-- The register an instruction may write (10_state.md R12); LDUR writes it only when the cell is present. -/
def mayWrite : Instr → Option RegIdx
  | .addi _ _ dest | .subi _ _ dest => some dest
  | .add _ _ _ dest | .sub _ _ _ dest | .and _ _ _ dest | .orr _ _ _ dest => some dest
  | .eor _ _ _ dest | .eor2 _ _ _ dest => some dest
  | .lsl _ _ _ dest | .lsr _ _ _ dest | .asr _ _ _ dest => some dest
  | .ldur _ _ _ dest => some dest
  | .b _ | .cbz _ _ | .cbnz _ _ | .stur _ _ _ _ | .movz _ _ _ | .movk _ _ _ => none
  | .nop | .brk | .unknown _ => none

/-- The sign-extended offset of a branch instruction (42_branch.md R105). -/
def branchOffset : Instr → Option Word
  | .b offset => some (sext32 offset)
  | .cbz offset _ | .cbnz offset _ => some (sext32 offset)
  | .addi _ _ _ | .subi _ _ _ | .stur _ _ _ _ | .ldur _ _ _ _ | .movz _ _ _ | .movk _ _ _ => none
  | .add _ _ _ _ | .sub _ _ _ _ | .and _ _ _ _ | .orr _ _ _ _ | .eor _ _ _ _ | .eor2 _ _ _ _ => none
  | .lsl _ _ _ _ | .lsr _ _ _ _ | .asr _ _ _ _ | .nop | .brk | .unknown _ => none

/-- The address a step from `s` stores to, if it stores. -/
def storesTo (s : State) (a : Word) : Prop :=
  ∃ w q, s.fetch s.pc = some w ∧ memRequest (decode w) s = some q ∧ q.we = true ∧ q.addr = a

/-- How many BREAK steps a trace records. -/
def breaksIn : List Record → Nat
  | [] => 0
  | r :: rs => (if r.line.mnemonic = .brk then 1 else 0) + breaksIn rs

/-- The latch that a number of executed BREAKs leaves (10_state.md R17). -/
def latchAfter : Nat → RunState
  | 0 => .running
  | 1 => .haltArmed
  | _ => .halted

/-- The invariant of a run: what holds before and after every step of an accepted stream. -/
structure State.Inv (s : State) : Prop where
  /-- The bound on `N` (00_scope.md R4). -/
  streamFits : Config.pcBase + 4 * s.imem.length < 2 ^ 32
  /-- 10_state.md R15: the pc stands at a line, or one past the last. -/
  pcOnLine : ∃ k, k ≤ s.imem.length ∧ s.pc.toNat = Config.pcBase + 4 * k
  /-- The memory is in its canonical form. -/
  memWf : s.dmem.wf
  /-- 40_execution_step.md R90: one record and one count a step, from 1. -/
  cycleCounts : s.cycle = s.trace.length + 1
  /-- 10_state.md R17: the latch is the number of BREAKs executed. -/
  latchCounts : s.runState = latchAfter (breaksIn s.trace)
  /-- 10_state.md R19: DATA_BASE and HAS_DATA are the loader's for the whole run. -/
  dataBaseLoaded : s.dataBase = (scanStream s.imem).dataBase
  hasDataLoaded : s.hasData = (scanStream s.imem).stored
  /-- 10_state.md R21: an address the loader made present is present for the whole run. -/
  loadedPresent : ∀ a : Word, memPresent (scanStream s.imem).dmem a = true → memPresent s.dmem a = true

/-- Two states a program cannot tell apart: they agree on all that an instruction reads, and may differ
in the cycle counter, DATA_BASE, HAS_DATA and the records. -/
def SameToPrograms (s t : State) : Prop :=
  s.regs = t.regs ∧ s.pc = t.pc ∧ s.runState = t.runState ∧ s.dmem = t.dmem ∧ s.imem = t.imem ∧
  s.watchdog = t.watchdog

/-- How many lines of a stream are the sentinel. -/
def sentinelsIn : List Word → Nat
  | [] => 0
  | w :: ws => (if w = Config.breakWord then 1 else 0) + sentinelsIn ws

/-- The line of index `k` stands inside a data segment (70_reset_and_hazards.md R172): it is no sentinel,
and an odd number of sentinels stand before it. -/
def InDataSegment (stream : List Word) (k : Nat) (w : Word) : Prop :=
  stream[k]? = some w ∧ w ≠ Config.breakWord ∧ sentinelsIn (stream.take k) % 2 = 1

/-- The sentinel of index `k` opens a data segment: an even number of sentinels stand before it. -/
def OpensSegment (stream : List Word) (k : Nat) : Prop :=
  stream[k]? = some Config.breakWord ∧ sentinelsIn (stream.take k) % 2 = 0

end Sys2Proof.Machine
end

