-- ==== Sys2Proof/Certificates/Slice0/Obligations.lean ====
section
/-! DEFINITION. The statements for the provers, each from the numbered rules of spec/. -/

open Sys2Proof Sys2Proof.Machine

/-! ### Encoding -/

/-- 95_test_vectors.md 2.1: words written out from the encoding tables decode as listed there. -/
def Obligations.WrittenWordsDecode : Prop :=
  decode 0b11111110110111101111111111100111#32 = .brk ∧
  decode 0b00000000000000000000000000000000#32 = .nop ∧
  decode 0b00010111111111111111111111111111#32 = .b (-1) ∧
  decode 0b10110100000000000000000001011111#32 = .cbz 2 31 ∧
  decode 0b11010010100000000000000101000001#32 = .movz 0 10 1 ∧
  decode 0b10010001001111111110110000100001#32 = .addi (-5) 1 1 ∧
  decode 0b11111000010000000010110010000101#32 = .ldur 2 3 4 5 ∧
  decode 0b11001011000000010000000001000011#32 = .sub 1 0 2 3 ∧
  decode 0b11101010000000010000000001000011#32 = .eor2 1 0 2 3 ∧
  decode 0b11010011100000001000000000100101#32 = .asr 0 32 1 5 ∧
  decode 0b10001011001000000000000000000000#32 = .unknown 0x8B200000

/-- 30_encoding.md R55 to R67: decoding an encoded well-formed instruction gives it back, every operand at
every value. The word kept by UNKNOWN and the second EOR constructor are the model's (log entries 9, 10). -/
def Obligations.DecodeOfEncodeGivesInstruction : Prop :=
  ∀ i : Instr, i.wellFormed = true → decode (encode i) = i

/-- 30_encoding.md R61: every word decodes to a well-formed instruction whose word it is, so no two
words share a Decoded Instruction (log entries 9, 10). -/
def Obligations.EncodeOfDecodeGivesWord : Prop :=
  ∀ w : Word, (decode w).wellFormed = true ∧ encode (decode w) = w

/-- 30_encoding.md R62, R63, R64, R67: trying the rows of the opcode map in any order gives the decoder's
mnemonic, and UNKNOWN when none is selected. -/
def Obligations.AnyRowOrderGivesDecodersMnemonic : Prop :=
  ∀ rows : List OpcodeRow, rows.Perm opcodeTable → ∀ w : Word,
    (decode w).mnemonic = match rows.find? (fun r => r.selects w) with
      | some r => r.mnemonic
      | none => .unknown

/-- 30_encoding.md R65. -/
def Obligations.BreakAndNopAreComparedInFull : Prop :=
  ∀ w : Word, (decode w = .brk ↔ w = 0xFEDEFFE7#32) ∧ (decode w = .nop ↔ w = 0x00000000#32) ∧
    (w.extractLsb' 21 11 = 0b11111110110#11 → w ≠ 0xFEDEFFE7#32 → decode w = .unknown w)

/-- 30_encoding.md R68: small positive and small negative data values are UNKNOWN, and 0 is NOP. -/
def Obligations.SmallDataWordsDecodeToUnknown : Prop :=
  (∀ w : Word, w.toNat < 2 ^ 26 → w ≠ 0#32 → decode w = .unknown w) ∧
  (∀ w : Word, 0xFFE00000 ≤ w.toNat → decode w = .unknown w) ∧ decode 0#32 = .nop

/-- 00_scope.md R5, 30_encoding.md R50, R51: a line is a word exactly when it is 32 characters 0 or 1, and
character `k` is bit `31 - k` (decision D3). -/
def Obligations.LineCharacterIsWordBit : Prop :=
  ∀ l : Line,
    ((wordOfLine l).isSome = true ↔ l.length = 32 ∧ ∀ c ∈ l, c = '0' ∨ c = '1') ∧
    ∀ w : Word, wordOfLine l = some w → ∀ k : Nat, k < 32 → (w.getLsbD (31 - k) = true ↔ l[k]? = some '1')

/-- 30_encoding.md R52, R53: the field extractor on the characters `a` to `b-1` of a line reads the bits
`31-a` to `32-b` of its word, unsigned and signed. -/
def Obligations.FieldOfLineIsFieldOfWord : Prop :=
  ∀ (l : Line) (w : Word), wordOfLine l = some w → ∀ a b : Nat, a < b → b ≤ 32 →
    unsignedField l a b = (w.extractLsb' (32 - b) (b - a)).toNat ∧
    signedField l a b = (w.extractLsb' (32 - b) (b - a)).toInt

/-- 30_encoding.md R53, 00_scope.md R6: sign extension of a field of any width up to 32. -/
def Obligations.SignExtensionKeepsSignedValue : Prop :=
  ∀ (n : Nat) (v : BitVec n), n ≤ 32 →
    (sext32 v).toInt = if v.getLsbD (n - 1) then (v.toNat : Int) - 2 ^ n else v.toNat

/-! ### Disassembly -/

/-- 30_encoding.md R69, R70: the spellings the spec's examples give (spelling of B, MOVZ, SUB, LSL by its
decision D17). -/
def Obligations.ExamplesDisassembleAsPrinted : Prop :=
  lineText (disasm (.addi 5 0 1) 96) = "ADDI R1, R0, #5" ∧
  lineText (disasm (.addi (-5) 1 1) 96) = "ADDI R1, R1, #-5" ∧
  lineText (disasm (.stur 0 0 4 3) 96) = "STUR R3, [R4, #0]" ∧
  lineText (disasm (.ldur 0 3 4 5) 96) = "LDUR R5, [R4, #0]" ∧
  lineText (disasm (.b 2) 96) = "B #104" ∧ lineText (disasm (.b 2) 200) = "B #208" ∧
  lineText (disasm (.cbz 2 0) 96) = "CBZ R0, #104" ∧
  lineText (disasm (.movz 0 10 1) 96) = "MOVZ R1, 10, LSL 0" ∧
  lineText (disasm (.movk 1 1 2) 96) = "MOVK R2, 1, LSL 16" ∧
  lineText (disasm (.sub 1 0 2 3) 96) = "SUB R3, R1, R2" ∧
  lineText (disasm (.lsl 7 4 1 5) 96) = "LSL R5, R1, #4" ∧
  lineText (disasm (.unknown 5) 96) = "UNKNOWN INSTRUCTION"

/-- 30_encoding.md R69 (b), 42_branch.md R105: the displayed target is `PC + offset * 4` on integers, and the
address the branch would go to is that integer modulo 2^32 (log entry 8). -/
def Obligations.ShownTargetIsBranchTarget : Prop :=
  ∀ (n : Nat) (offset : BitVec n) (pc : Word), n ≤ 32 →
    shownTarget pc offset = pc.toNat + 4 * offset.toInt ∧
    ((pc + 4#32 * sext32 offset).toNat : Int) = shownTarget pc offset % 2 ^ 32

/-! ### Reset and loading -/

/-- 70 R170: the state before the first step of a loaded stream (first cycle 1 by decision D12), and
reset is the load of no lines (log entry 3). -/
def Obligations.LoadedStateHasResetValues : Prop :=
  State.load [] = State.reset ∧ ∀ stream : List Word,
    (∀ r : RegIdx, (State.load stream).readReg r = 0#32) ∧ (State.load stream).pc = 96#32 ∧
    (State.load stream).runState = .running ∧ (State.load stream).cycle = 1 ∧
    (State.load stream).imem = stream ∧ (State.load stream).watchdog = none ∧
    (State.load stream).records = []

/-- 70 R172: after a load the present addresses are exactly those of the lines inside data segments, each
holding its line's word at its own stream address (decision D13). -/
def Obligations.LoaderStoresExactlyDataSegments : Prop :=
  ∀ stream : List Word, 96 + 4 * stream.length < 2 ^ 32 → ∀ a v : Word,
    memRead (State.load stream).dmem a = some v ↔
      ∃ k, InDataSegment stream k v ∧ a.toNat = 96 + 4 * k

/-- 70 R172, R173: DATA_BASE is the address after the last sentinel that opens a segment, and has no value
when there is no sentinel; HAS_DATA says that some line was stored (decisions D13, D14, D15). -/
def Obligations.LoaderSetsDataBaseAndHasData : Prop :=
  ∀ stream : List Word,
    (∀ k, OpensSegment stream k → (∀ j, k < j → ¬ OpensSegment stream j) →
      (State.load stream).dataBase = some (BitVec.ofNat 32 (96 + 4 * (k + 1)))) ∧
    ((State.load stream).dataBase = none ↔ Config.breakWord ∉ stream) ∧
    ((State.load stream).hasData = true ↔ ∃ k v, InDataSegment stream k v)

/-- 70 R171, R174: a stream of well-formed lines that fits is loaded; otherwise the first malformed line
names the refusal: DataSegmentError inside a data segment, MalformedField elsewhere (decision D19, log
entry 11). -/
def Obligations.StreamIsLoadedOrRefusedByName : Prop :=
  (∀ (lines : List Line) (stream : List Word), lines.map wordOfLine = stream.map some →
    96 + 4 * stream.length < 2 ^ 32 → loadLines lines = .next (State.load stream)) ∧
  ∀ (before after : List Line) (bad : Line) (words : List Word),
    before.map wordOfLine = words.map some → wordOfLine bad = none →
    loadLines (before ++ bad :: after) =
      .refused (if sentinelsIn words % 2 = 1 then .dataSegmentError else .malformedField)

/-! ### The invariant of a run -/

/-- Reset meets the invariant. -/
def Obligations.ResetMeetsInvariant : Prop := State.reset.Inv

/-- 70 R170 to R173: every loaded stream that fits meets the invariant, with any MAX_STEPS. -/
def Obligations.LoadedStreamMeetsInvariant : Prop :=
  ∀ (stream : List Word) (maxSteps : Option Nat), 96 + 4 * stream.length < 2 ^ 32 →
    ((State.load stream).withMaxSteps maxSteps).Inv

/-- 10_state.md R15, R17, R19, R21, 40 R90: every step keeps the invariant: the pc stands at a line or one
past the last, the memory keeps its canonical form, the counter counts the records, the latch is the
number of BREAK steps, DATA_BASE and HAS_DATA stay the loader's, no loaded address is lost. -/
def Obligations.StepKeepsInvariant : Prop :=
  ∀ s t : State, s.Inv → step s = .next t → t.Inv

/-! ### The step -/

/-- 40 R82: an enabled step decodes the fetched word, dispatches it, and retires it. -/
def Obligations.StepRunsDecodedInstruction : Prop :=
  ∀ (s : State) (w : Word), s.runState ≠ .halted → s.fetch s.pc = some w → s.watchdog ≠ some 0 →
    ∃ t, exec (decode w) s = .next t ∧ step s = .next (retire (decode w) s t)

/-- 10_state.md R20, 42_branch.md R105: the mapped addresses are `96 + 4*k` for the `N` lines, and the word
fetched there is `IMEM[k]`. -/
def Obligations.FetchReadsTheLineAtItsAddress : Prop :=
  ∀ (s : State) (a w : Word),
    s.fetch a = some w ↔ ∃ k, s.imem[k]? = some w ∧ a.toNat = 96 + 4 * k

/-- 40 R81: with no MAX_STEPS, a step is enabled exactly when the latch is not Halted and the pc is mapped;
where the pc is not mapped the stream is exhausted. -/
def Obligations.StepEnabledExactlyWhenRunningAndMapped : Prop :=
  ∀ s : State, s.Inv → s.watchdog = none →
    ((∃ t, step s = .next t) ↔ s.runState ≠ .halted ∧ s.mapped s.pc = true) ∧
    (s.runState ≠ .halted → s.mapped s.pc = false → s.pc.toNat = 96 + 4 * s.imem.length)

/-- 40 R88, R89: what `step` answers where no step is enabled (the names are the model's, log entries 4, 5). -/
def Obligations.StepStopsByName : Prop :=
  ∀ s : State,
    (s.runState = .halted → step s = .fault .runHalted) ∧
    (s.runState ≠ .halted → s.mapped s.pc = false → step s = .fault .streamExhausted) ∧
    (s.runState ≠ .halted → s.mapped s.pc = true → s.watchdog = some 0 → step s = .fault .runawayExecution)

/-- 60 R150: every word executes to completion, every enabled step has exactly one successor, and nothing is
refused. -/
def Obligations.EveryWordCompletes : Prop :=
  (∀ (w : Word) (s : State), ∃ t, exec (decode w) s = .next t) ∧
  (∀ s : State, s.Enabled → ∃ t, ∀ o, step s = o ↔ o = .next t) ∧
  ∀ (s : State) (r : Refusal), step s ≠ .refused r

/-- 40 R85: the record a step emits: the counter and the disassembly as issued, the registers and the
memory as the step leaves them, a dump exactly when HAS_DATA, its `k`-th word the DumpRead of
`DATA_BASE + 4*k`, as far as the 2^32 data addresses go (20_memory.md R37), and no word after them (log
entries 6, 7, 23). -/
def Obligations.StepEmitsOneRecord : Prop :=
  ∀ (s t : State) (w : Word), s.Inv → step s = .next t → s.fetch s.pc = some w →
    ∃ r, t.trace = r :: s.trace ∧ r.cycle = s.cycle ∧ r.line = disasm (decode w) s.pc ∧ r.regs = t.regs ∧
      (s.hasData = false → r.dump = none) ∧
      (s.hasData = true → ∃ d base, r.dump = some d ∧ s.dataBase = some base ∧
        (∀ (k : Nat) (a : Word), a.toNat = base.toNat + 4 * k → d.word k = some (dumpRead t.dmem a)) ∧
        ∀ k : Nat, 2 ^ 32 ≤ base.toNat + 4 * k → d.word k = none)

/-- 20_memory.md R30, 10_state.md R24: a dump does not tell an absent address from one that holds 0. -/
def Obligations.DumpHidesPresence : Prop :=
  ∀ s t : State, s.dmem.wf → t.dmem.wf → s.hasData = t.hasData → s.dataBase = t.dataBase →
    (∀ a : Word, dumpRead s.dmem a = dumpRead t.dmem a) → s.dump = t.dump

/-- 40 R90: one count and one record per step, whatever the instruction, and no rule depends on the
counter. -/
def Obligations.CycleCountsStepsAndNothingReadsIt : Prop :=
  (∀ s t : State, step s = .next t → t.cycle = s.cycle + 1) ∧
  (∀ (k : Nat) (s t : State), core.run k s = .next t → t.trace.length = s.trace.length + k) ∧
  ∀ (s t : State) (c : Nat), step s = .next t → ∃ t', step { s with cycle := c } = .next t' ∧ SameToPrograms t t'

/-- 10_state.md R18, R19, 70 R173: the cycle counter, DATA_BASE, HAS_DATA and the records never influence
execution: runs that agree on the rest go on agreeing, and end alike. -/
def Obligations.RunsIgnoreCounterAndDataBase : Prop :=
  ∀ (k : Nat) (s s' : State), SameToPrograms s s' →
    (∀ t, core.run k s = .next t → ∃ t', core.run k s' = .next t' ∧ SameToPrograms t t') ∧
    (∀ f, core.run k s = .fault f → core.run k s' = .fault f)

/-- 40 R89: with MAX_STEPS a run takes at most that many steps, each using one up. -/
def Obligations.WatchdogBoundsTheRun : Prop :=
  ∀ (m k : Nat) (s t : State), s.watchdog = some m → core.run k s = .next t →
    k ≤ m ∧ t.watchdog = some (m - k)

/-- 40 R89, 42 R106 (a): the word 0x14000000 branches to itself for ever when there is no cap. -/
def Obligations.SelfBranchRunsForEver : Prop :=
  ∀ s : State, s.fetch s.pc = some 0x14000000#32 → s.runState ≠ .halted → s.watchdog = none →
    ∀ k, ∃ t, core.run k s = .next t ∧ t.pc = s.pc ∧ t.regs = s.regs ∧ t.dmem = s.dmem

/-- Log entry 3: a word placed where the next step fetches is what the next step runs. -/
def Obligations.PlacedWordRunsNext : Prop :=
  ∀ (s : State) (w : Word), ∃ t, exec (decode w) (s.withFetchWord 32 w.toNat) = .next t ∧
    step (s.withFetchWord 32 w.toNat) = .next (retire (decode w) (s.withFetchWord 32 w.toNat) t)

/-! ### Whole-machine rules over all instructions -/

/-- 10_state.md R11: no register is hard-wired: a write to any register, 31 and 0 among them, is read back,
no other register changes, the value stays for as long as no step may write the register, and `x[0]`, like
the rest, starts at 0. -/
def Obligations.NoRegisterIsHardWired : Prop :=
  (∀ (s : State) (r : RegIdx) (v : Word),
    (s.writeReg r v).readReg r = v ∧ ∀ q : RegIdx, q ≠ r → (s.writeReg r v).readReg q = s.readReg q) ∧
  (∀ (r : RegIdx) (k : Nat) (s t : State), core.run k s = .next t →
    (∀ j u w, j < k → core.run j s = .next u → u.fetch u.pc = some w → mayWrite (decode w) ≠ some r) →
    t.readReg r = s.readReg r) ∧
  ∀ stream : List Word, (State.load stream).readReg 0 = 0#32

/-- 10_state.md R12: an instruction changes at most the one register it may write. -/
def Obligations.AtMostOneRegisterWritten : Prop :=
  ∀ (i : Instr) (s t : State), exec i s = .next t →
    ∀ r : RegIdx, t.readReg r ≠ s.readReg r → mayWrite i = some r

/-- 10_state.md R21, 20_memory.md R32: only STUR changes the data memory, and a present address stays
present. -/
def Obligations.OnlySturWritesMemory : Prop :=
  ∀ (i : Instr) (s t : State), exec i s = .next t →
    (i.mnemonic ≠ .stur → t.dmem = s.dmem) ∧
    ∀ a : Word, memPresent s.dmem a = true → memPresent t.dmem a = true

/-- 20_memory.md R31, R32: an instruction's effect on data memory is that of its one port request, and a
load's register write-back is enabled by `rvalid` (the port view is the spec's decision D20). -/
def Obligations.MemoryChangesByPortRequest : Prop :=
  ∀ (i : Instr) (s t : State), exec i s = .next t →
    (memRequest i s = none → t.dmem = s.dmem) ∧
    ∀ q, memRequest i s = some q →
      (q.we = true → t.dmem = memWrite s.dmem q.addr q.wdata ∧ RegsKept s t) ∧
      (q.we = false → t.dmem = s.dmem ∧
        (memPresent s.dmem q.addr = false → RegsKept s t) ∧
        (memPresent s.dmem q.addr = true → ∃ dest, mayWrite i = some dest ∧
          memRead s.dmem q.addr = some (t.readReg dest)))

/-- 20_memory.md R38: along a run, an address that no step stores to keeps its value, or its absence. -/
def Obligations.CellKeepsValueUntilStoredTo : Prop :=
  ∀ (a : Word) (k : Nat) (s t : State), core.run k s = .next t →
    (∀ j u, j < k → core.run j s = .next u → ¬ storesTo u a) →
    memRead t.dmem a = memRead s.dmem a

/-- 20_memory.md R40: stores are never seen by fetch, however many steps pass. -/
def Obligations.StoresNeverReachInstructions : Prop :=
  (∀ (s : State) (a v b : Word), (s.store a v).fetch b = s.fetch b) ∧
  ∀ (k : Nat) (s t : State), core.run k s = .next t → t.imem = s.imem ∧ ∀ a : Word, t.fetch a = s.fetch a

/-- 10_state.md R14: the next pc is `pc + 4`, or the mapped target of a branch. -/
def Obligations.NextPcIsSequentialOrMappedTarget : Prop :=
  ∀ (s t : State) (w : Word), step s = .next t → s.fetch s.pc = some w →
    t.pc = s.pc + 4#32 ∨
    ∃ offset, branchOffset (decode w) = some offset ∧ s.mapped (s.pc + 4#32 * offset) = true ∧
      t.pc = s.pc + 4#32 * offset

/-- 10_state.md R17: only BREAK moves the latch, one stage at a time. -/
def Obligations.OnlyBreakMovesTheLatch : Prop :=
  ∀ (s t : State) (w : Word), step s = .next t → s.fetch s.pc = some w →
    (w ≠ 0xFEDEFFE7#32 → t.runState = s.runState) ∧
    (w = 0xFEDEFFE7#32 → s.runState = .running → t.runState = .haltArmed) ∧
    (w = 0xFEDEFFE7#32 → s.runState = .haltArmed → t.runState = .halted)

/-- 60 R156: Halted is terminal, HaltArmed never goes back to Running, and a new run starts in Running. -/
def Obligations.HaltedIsTerminalAndLatchNeverDisarmed : Prop :=
  (∀ s t : State, s.runState = .halted → step s ≠ .next t) ∧
  (∀ (i : Instr) (s t : State), exec i s = .next t →
    (s.runState = .halted → t.runState = .halted) ∧ (s.runState = .haltArmed → t.runState ≠ .running)) ∧
  (∀ (k : Nat) (s t : State), core.run k s = .next t → s.runState ≠ .running → t.runState ≠ .running) ∧
  ∀ stream : List Word, (State.load stream).runState = .running

/-! ### Data memory -/

/-- 20_memory.md R30: a write makes its address present with its value and leaves every other address as it
was; DumpRead gives 0 for an absent address; the write keeps the canonical form. -/
def Obligations.MemoryReadsWhatWasWritten : Prop :=
  ∀ (m : Memory) (a v : Word),
    memPresent (memWrite m a v) a = true ∧ memRead (memWrite m a v) a = some v ∧
    (∀ b : Word, b ≠ a → memRead (memWrite m a v) b = memRead m b) ∧
    (m.wf → (memWrite m a v).wf) ∧
    (memPresent m a = false → dumpRead m a = 0#32) ∧ (∀ u, memRead m a = some u → dumpRead m a = u)

/-- 20_memory.md R35: the cells at `a + 1`, `a + 2`, `a + 3` do not overlap the cell at `a` (decision D4). -/
def Obligations.MisalignedCellsDoNotOverlap : Prop :=
  ∀ (m : Memory) (a v : Word) (d : Nat), 0 < d → d < 4 →
    memRead (memWrite m a v) (a + BitVec.ofNat 32 d) = memRead m (a + BitVec.ofNat 32 d)

/-! ### Instructions -/

/-- 41 R101: NOP, the all-zero word in full, changes the pc alone, and its step is counted and recorded. -/
def Obligations.NopOnlyAdvances : Prop :=
  (∀ w : Word, decode w = .nop ↔ w = 0x00000000#32) ∧
  (∀ s : State, ∃ t, exec .nop s = .next t ∧ OnlyPcChanged s t ∧ t.pc = s.pc + 4#32) ∧
  ∀ s : State, s.runState ≠ .halted → s.watchdog ≠ some 0 → s.fetch s.pc = some 0x00000000#32 →
    ∃ t r, step s = .next t ∧ RegsKept s t ∧ MemKept s t ∧ t.runState = s.runState ∧
      t.pc = s.pc + 4#32 ∧ t.cycle = s.cycle + 1 ∧ t.trace = r :: s.trace ∧ r.text = "NOP"

/-- 41 R102: UNKNOWN, every word no row selects, changes the pc alone; its step is counted and recorded with
its own text. -/
def Obligations.UnknownOnlyAdvances : Prop :=
  (∀ w : Word, (decode w).mnemonic = .unknown ↔ ∀ r ∈ opcodeTable, w &&& r.mask ≠ r.value) ∧
  (∀ (w : Word) (s : State), ∃ t, exec (.unknown w) s = .next t ∧ OnlyPcChanged s t ∧ t.pc = s.pc + 4#32) ∧
  ∀ (s : State) (w : Word), s.runState ≠ .halted → s.watchdog ≠ some 0 → s.fetch s.pc = some w →
    (decode w).mnemonic = .unknown →
    ∃ t r, step s = .next t ∧ RegsKept s t ∧ MemKept s t ∧ t.runState = s.runState ∧
      t.pc = s.pc + 4#32 ∧ t.cycle = s.cycle + 1 ∧ t.trace = r :: s.trace ∧ r.text = "UNKNOWN INSTRUCTION"

/-- 41 R100: BREAK moves the latch by one stage and advances the pc; nothing else changes (that the engine
goes on after the first is decision D10). -/
def Obligations.BreakMovesLatchAndAdvances : Prop :=
  ∀ s : State, s.runState ≠ .halted → ∃ t, exec .brk s = .next t ∧
    t.runState = (if s.runState = .running then .haltArmed else .halted) ∧
    t.pc = s.pc + 4#32 ∧ RegsKept s t ∧ MemKept s t ∧ RestKept s t

/-- 43 R110, R111: MOVZ and MOVK are decoded and displayed, and write no register: the pc alone changes. -/
def Obligations.MovzAndMovkHaveNoEffect : Prop :=
  ∀ (sc : BitVec 2) (field : BitVec 16) (dest : RegIdx),
    decode (wordIM 0b110100101#9 sc field dest) = .movz sc field dest ∧
    decode (wordIM 0b111100101#9 sc field dest) = .movk sc field dest ∧
    (∀ pc : Word, lineText (disasm (.movz sc field dest) pc) = "MOVZ R" ++ Nat.repr dest.toNat ++ ", " ++
      Nat.repr field.toNat ++ ", LSL " ++ Nat.repr (16 * sc.toNat)) ∧
    (∀ pc : Word, lineText (disasm (.movk sc field dest) pc) = "MOVK R" ++ Nat.repr dest.toNat ++ ", " ++
      Nat.repr field.toNat ++ ", LSL " ++ Nat.repr (16 * sc.toNat)) ∧
    ∀ s : State,
      (∃ t, exec (.movz sc field dest) s = .next t ∧ OnlyPcChanged s t ∧ t.pc = s.pc + 4#32) ∧
      (∃ t, exec (.movk sc field dest) s = .next t ∧ OnlyPcChanged s t ∧ t.pc = s.pc + 4#32)

/-- 42 R105, R106: B goes to `pc + 4*offset` where an instruction stands there, else to `pc + 4`. -/
def Obligations.BranchGoesToMappedTarget : Prop :=
  ∀ (offset : BitVec 26) (s : State), ∃ t, exec (.b offset) s = .next t ∧ OnlyPcChanged s t ∧
    ∀ target : Word, (target.toNat : Int) = (s.pc.toNat + 4 * offset.toInt) % 2 ^ 32 →
      t.pc = if s.mapped target then target else s.pc + 4#32

/-- 42 R105, R107: CBZ does so when all 32 bits of `x[cond]` are 0, else goes to `pc + 4`. -/
def Obligations.CbzBranchesOnZero : Prop :=
  ∀ (offset : BitVec 19) (cond : RegIdx) (s : State), ∃ t,
    exec (.cbz offset cond) s = .next t ∧ OnlyPcChanged s t ∧
    ∀ target : Word, (target.toNat : Int) = (s.pc.toNat + 4 * offset.toInt) % 2 ^ 32 →
      t.pc = if (s.readReg cond).toNat = 0 ∧ s.mapped target = true then target else s.pc + 4#32

/-- 42 R105, R108: CBNZ does so when some bit of `x[cond]` is not 0, else goes to `pc + 4`. -/
def Obligations.CbnzBranchesOnNonzero : Prop :=
  ∀ (offset : BitVec 19) (cond : RegIdx) (s : State), ∃ t,
    exec (.cbnz offset cond) s = .next t ∧ OnlyPcChanged s t ∧
    ∀ target : Word, (target.toNat : Int) = (s.pc.toNat + 4 * offset.toInt) % 2 ^ 32 →
      t.pc = if (s.readReg cond).toNat ≠ 0 ∧ s.mapped target = true then target else s.pc + 4#32

/-- 44 R115, R116: ADDI and SUBI add and subtract the signed immediate modulo 2^32 (decision D1) and write
`dest` alone; operands are read before the write (40 R84). -/
def Obligations.ImmediateArithmeticIsSignedModulo : Prop :=
  ∀ (imm : BitVec 12) (src1 dest : RegIdx) (s : State),
    (∃ t, exec (.addi imm src1 dest) s = .next t ∧ OnlyRegWritten dest s t ∧
      ((t.readReg dest).toNat : Int) = ((s.readReg src1).toInt + imm.toInt) % 2 ^ 32) ∧
    (∃ t, exec (.subi imm src1 dest) s = .next t ∧ OnlyRegWritten dest s t ∧
      ((t.readReg dest).toNat : Int) = ((s.readReg src1).toInt - imm.toInt) % 2 ^ 32)

/-- 46 R125, R126, R130: ADD and SUB, modulo 2^32 (decision D1); SUB takes `x[src2]` from `x[src1]`, `src1`
the field `w[20:16]` (decision D7); `shamt` has no effect. -/
def Obligations.RegisterArithmeticIsModulo : Prop :=
  ∀ (src1 : RegIdx) (shamt : BitVec 6) (src2 dest : RegIdx) (s : State),
    (∃ t, exec (.add src1 shamt src2 dest) s = .next t ∧ OnlyRegWritten dest s t ∧
      ((t.readReg dest).toNat : Int) = ((s.readReg src1).toInt + (s.readReg src2).toInt) % 2 ^ 32) ∧
    (∃ t, exec (.sub src1 shamt src2 dest) s = .next t ∧ OnlyRegWritten dest s t ∧
      ((t.readReg dest).toNat : Int) = ((s.readReg src1).toInt - (s.readReg src2).toInt) % 2 ^ 32)

/-- 46 R127: AND, bit by bit, all 32 bits; its discriminator is `10001010000`. -/
def Obligations.AndIsBitwise : Prop :=
  ∀ (src1 : RegIdx) (shamt : BitVec 6) (src2 dest : RegIdx),
    decode (wordR 0b10001010000#11 src1 shamt src2 dest) = .and src1 shamt src2 dest ∧
    ∀ s : State, ∃ t, exec (.and src1 shamt src2 dest) s = .next t ∧ OnlyRegWritten dest s t ∧
      ∀ k, k < 32 → ((t.readReg dest).getLsbD k = true ↔
        (s.readReg src1).getLsbD k = true ∧ (s.readReg src2).getLsbD k = true)

/-- 46 R128: ORR, bit by bit, all 32 bits; its discriminator is `10101010000`. -/
def Obligations.OrrIsBitwise : Prop :=
  ∀ (src1 : RegIdx) (shamt : BitVec 6) (src2 dest : RegIdx),
    decode (wordR 0b10101010000#11 src1 shamt src2 dest) = .orr src1 shamt src2 dest ∧
    ∀ s : State, ∃ t, exec (.orr src1 shamt src2 dest) s = .next t ∧ OnlyRegWritten dest s t ∧
      ∀ k, k < 32 → ((t.readReg dest).getLsbD k = true ↔
        (s.readReg src1).getLsbD k = true ∨ (s.readReg src2).getLsbD k = true)

/-- 46 R129, 30 R64: EOR, bit by bit, under both discriminators (decision D8). -/
def Obligations.EorIsBitwiseUnderBothPatterns : Prop :=
  ∀ (src1 : RegIdx) (shamt : BitVec 6) (src2 dest : RegIdx) (s : State), ∃ t,
    exec (decode (wordR 0b11001010000#11 src1 shamt src2 dest)) s = .next t ∧
    exec (decode (wordR 0b11101010000#11 src1 shamt src2 dest)) s = .next t ∧
    exec (.eor src1 shamt src2 dest) s = .next t ∧ exec (.eor2 src1 shamt src2 dest) s = .next t ∧
    OnlyRegWritten dest s t ∧
    ∀ k, k < 32 → ((t.readReg dest).getLsbD k = true ↔
      ¬((s.readReg src1).getLsbD k = true ↔ (s.readReg src2).getLsbD k = true))

/-- 47 R138: the shift functions are the formulas of the rule for every amount 0 to 63 (decision D6). -/
def Obligations.ShiftFunctionsAreTheirFormulas : Prop :=
  ∀ (v : Word) (amount : BitVec 6),
    (shl v amount).toNat = v.toNat * 2 ^ amount.toNat % 2 ^ 32 ∧
    (lshr v amount).toNat = v.toNat / 2 ^ amount.toNat ∧
    (ashr v amount).toInt = v.toInt / 2 ^ amount.toNat ∧
    (32 ≤ amount.toNat → shl v amount = 0#32 ∧ lshr v amount = 0#32) ∧
    (31 ≤ amount.toNat → ashr v amount = if v.getLsbD 31 then 0xFFFFFFFF#32 else 0#32)

/-- 47 R135 to R137: LSL, LSR and ASR shift `x[src2]` by the 6-bit `shamt` and write `dest` alone; `src1`
has no effect. -/
def Obligations.ShiftsWriteShiftedRegister : Prop :=
  ∀ (src1 : RegIdx) (shamt : BitVec 6) (src2 dest : RegIdx) (s : State),
    (∃ t, exec (.lsl src1 shamt src2 dest) s = .next t ∧ OnlyRegWritten dest s t ∧
      (t.readReg dest).toNat = (s.readReg src2).toNat * 2 ^ shamt.toNat % 2 ^ 32) ∧
    (∃ t, exec (.lsr src1 shamt src2 dest) s = .next t ∧ OnlyRegWritten dest s t ∧
      (t.readReg dest).toNat = (s.readReg src2).toNat / 2 ^ shamt.toNat) ∧
    (∃ t, exec (.asr src1 shamt src2 dest) s = .next t ∧ OnlyRegWritten dest s t ∧
      (t.readReg dest).toInt = (s.readReg src2).toInt / 2 ^ shamt.toNat)

/-- 45 R120: the effective address is `x[src1] + 4*imm` modulo 2^32, the immediate signed (decision D2). -/
def Obligations.EffectiveAddressCountsWords : Prop :=
  ∀ (s : State) (imm : BitVec 9) (src1 : RegIdx),
    ((s.effAddr imm src1).toNat : Int) = ((s.readReg src1).toNat + 4 * imm.toInt) % 2 ^ 32

/-- 45 R121: STUR makes its effective address present with `x[dest]`, leaves every other address and every
register as they were, and advances; `op2` has no effect. -/
def Obligations.SturStoresOneWord : Prop :=
  ∀ (imm : BitVec 9) (op2 : BitVec 2) (src1 dest : RegIdx) (s : State), ∃ t,
    exec (.stur imm op2 src1 dest) s = .next t ∧
    memRead t.dmem (s.effAddr imm src1) = some (s.readReg dest) ∧
    OtherMemKept (s.effAddr imm src1) s t ∧ RegsKept s t ∧ t.runState = s.runState ∧ RestKept s t ∧
    t.pc = s.pc + 4#32

/-- 45 R122: LDUR loads the cell when its address is present, and otherwise leaves `x[dest]` as it was; it
changes no memory; `op2` has no effect. -/
def Obligations.LdurLoadsOnlyPresentCells : Prop :=
  ∀ (imm : BitVec 9) (op2 : BitVec 2) (src1 dest : RegIdx) (s : State), ∃ t,
    exec (.ldur imm op2 src1 dest) s = .next t ∧ OnlyRegWritten dest s t ∧
    (∀ v, memRead s.dmem (s.effAddr imm src1) = some v → t.readReg dest = v) ∧
    (memPresent s.dmem (s.effAddr imm src1) = false → t.readReg dest = s.readReg dest)

/-- 95 E6, 45 R121, R122: a load from the address of a store gives the value the register held at store
time, whatever has happened to the registers since. -/
def Obligations.LoadAfterStoreGivesStoredValue : Prop :=
  ∀ (imm imm' : BitVec 9) (op2 op2' : BitVec 2) (src1 dest src1' dest' : RegIdx) (s t u : State),
    exec (.stur imm op2 src1 dest) s = .next t → u.dmem = t.dmem →
    u.effAddr imm' src1' = s.effAddr imm src1 →
    ∃ v, exec (.ldur imm' op2' src1' dest') u = .next v ∧ v.readReg dest' = s.readReg dest

/-- 45 R121 (c): a store below DATA_BASE, or with HAS_DATA false, takes effect in the data memory and shows in
no dump: the dump is what it would be without it, and memories that agree from DATA_BASE on have the same
dump, whatever stands below it. -/
def Obligations.StoreBelowDataBaseNeverShows : Prop :=
  (∀ (imm : BitVec 9) (op2 : BitVec 2) (src1 dest : RegIdx) (s : State), ∃ t,
    exec (.stur imm op2 src1 dest) s = .next t ∧
    memRead t.dmem (s.effAddr imm src1) = some (s.readReg dest) ∧ (s.hasData = false → t.dump = none) ∧
    ∀ base, s.dataBase = some base → (s.effAddr imm src1).toNat < base.toNat → t.dump = s.dump) ∧
  ∀ (s t : State) (base : Word), s.dmem.wf → t.dmem.wf → s.hasData = t.hasData →
    s.dataBase = some base → t.dataBase = some base →
    (∀ a : Word, base.toNat ≤ a.toNat → dumpRead s.dmem a = dumpRead t.dmem a) → s.dump = t.dump
end

