-- ==== Sys2Proof/Laws/Decode.lean ====
section
/-! SUPPORT. What the decoder reads back from the words the encoder makes: the discriminator and the
fields of each format, and a word rebuilt from its parts. -/

namespace Sys2Proof.Laws

/-! ### The discriminator and the fields of an encoded word -/

section
variable (d6 : BitVec 6) (d8 : BitVec 8) (d9 : BitVec 9) (d10 : BitVec 10) (d11 : BitVec 11)
  (o26 : BitVec 26) (o19 : BitVec 19) (f16 : BitVec 16) (i12 : BitVec 12) (i9 : BitVec 9)
  (s6 : BitVec 6) (q : BitVec 2) (a b c : RegIdx)

/-- The top bits of a word are the top bits of its discriminator. -/
theorem top_append {n m k : Nat} (d : BitVec n) (r : BitVec m) (_hk : k ≤ n) (lo : Nat)
    (hlo : lo = m + (n - k)) : (d ++ r).extractLsb' lo k = d.extractLsb' (n - k) k := by
  subst hlo
  rw [BitVec.extractLsb'_append_eq_of_le (Nat.le_add_right m (n - k)), Nat.add_sub_cancel_left]

theorem top_wordB {k : Nat} (hk : k ≤ 6) : top (wordB d6 o26) k = d6.extractLsb' (6 - k) k :=
  top_append d6 o26 hk _ (by omega)

theorem top_wordCB {k : Nat} (hk : k ≤ 8) : top (wordCB d8 o19 c) k = d8.extractLsb' (8 - k) k :=
  top_append d8 (o19 ++ c) hk _ (by omega)

theorem top_wordIM {k : Nat} (hk : k ≤ 9) : top (wordIM d9 q f16 c) k = d9.extractLsb' (9 - k) k :=
  top_append d9 (q ++ (f16 ++ c)) hk _ (by omega)

theorem top_wordI {k : Nat} (hk : k ≤ 10) : top (wordI d10 i12 a c) k = d10.extractLsb' (10 - k) k :=
  top_append d10 (i12 ++ (a ++ c)) hk _ (by omega)

theorem top_wordD {k : Nat} (hk : k ≤ 11) : top (wordD d11 i9 q a c) k = d11.extractLsb' (11 - k) k :=
  top_append d11 (i9 ++ (q ++ (a ++ c))) hk _ (by omega)

theorem top_wordR {k : Nat} (hk : k ≤ 11) : top (wordR d11 a s6 b c) k = d11.extractLsb' (11 - k) k :=
  top_append d11 (a ++ (s6 ++ (b ++ c))) hk _ (by omega)

/-- A field that lies wholly below the upper part of a word is read from the lower part. -/
theorem extract_low {n m : Nat} (x : BitVec n) (y : BitVec m) (lo len : Nat) (h : lo + len ≤ m) :
    (x ++ y).extractLsb' lo len = y.extractLsb' lo len :=
  BitVec.extractLsb'_append_eq_of_add_le h

/-- A field that lies just above the lower part of a word is the lower end of the upper part. -/
theorem extract_mid {n m : Nat} (x : BitVec n) (y : BitVec m) :
    (x ++ y).extractLsb' m n = x := BitVec.extractLsb'_append_eq_left

@[simp] theorem offsetB_wordB : offsetB (wordB d6 o26) = o26 := BitVec.extractLsb'_append_eq_right

@[simp] theorem offsetCB_wordCB : offsetCB (wordCB d8 o19 c) = o19 :=
  (extract_low d8 (o19 ++ c) 5 19 (by decide)).trans (extract_mid o19 c)

@[simp] theorem regAt0_wordCB : regAt0 (wordCB d8 o19 c) = c :=
  (extract_low d8 (o19 ++ c) 0 5 (by decide)).trans BitVec.extractLsb'_append_eq_right

@[simp] theorem scIM_wordIM : scIM (wordIM d9 q f16 c) = q :=
  (extract_low d9 (q ++ (f16 ++ c)) 21 2 (by decide)).trans (extract_mid q (f16 ++ c))

@[simp] theorem fieldIM_wordIM : fieldIM (wordIM d9 q f16 c) = f16 :=
  (extract_low d9 (q ++ (f16 ++ c)) 5 16 (by decide)).trans
    ((extract_low q (f16 ++ c) 5 16 (by decide)).trans (extract_mid f16 c))

@[simp] theorem regAt0_wordIM : regAt0 (wordIM d9 q f16 c) = c :=
  (extract_low d9 (q ++ (f16 ++ c)) 0 5 (by decide)).trans
    ((extract_low q (f16 ++ c) 0 5 (by decide)).trans BitVec.extractLsb'_append_eq_right)

@[simp] theorem immI_wordI : immI (wordI d10 i12 a c) = i12 :=
  (extract_low d10 (i12 ++ (a ++ c)) 10 12 (by decide)).trans (extract_mid i12 (a ++ c))

@[simp] theorem regAt5_wordI : regAt5 (wordI d10 i12 a c) = a :=
  (extract_low d10 (i12 ++ (a ++ c)) 5 5 (by decide)).trans
    ((extract_low i12 (a ++ c) 5 5 (by decide)).trans (extract_mid a c))

@[simp] theorem regAt0_wordI : regAt0 (wordI d10 i12 a c) = c :=
  (extract_low d10 (i12 ++ (a ++ c)) 0 5 (by decide)).trans
    ((extract_low i12 (a ++ c) 0 5 (by decide)).trans BitVec.extractLsb'_append_eq_right)

@[simp] theorem immD_wordD : immD (wordD d11 i9 q a c) = i9 :=
  (extract_low d11 (i9 ++ (q ++ (a ++ c))) 12 9 (by decide)).trans (extract_mid i9 (q ++ (a ++ c)))

@[simp] theorem op2D_wordD : op2D (wordD d11 i9 q a c) = q :=
  (extract_low d11 (i9 ++ (q ++ (a ++ c))) 10 2 (by decide)).trans
    ((extract_low i9 (q ++ (a ++ c)) 10 2 (by decide)).trans (extract_mid q (a ++ c)))

@[simp] theorem regAt5_wordD : regAt5 (wordD d11 i9 q a c) = a :=
  (extract_low d11 (i9 ++ (q ++ (a ++ c))) 5 5 (by decide)).trans
    ((extract_low i9 (q ++ (a ++ c)) 5 5 (by decide)).trans
      ((extract_low q (a ++ c) 5 5 (by decide)).trans (extract_mid a c)))

@[simp] theorem regAt0_wordD : regAt0 (wordD d11 i9 q a c) = c :=
  (extract_low d11 (i9 ++ (q ++ (a ++ c))) 0 5 (by decide)).trans
    ((extract_low i9 (q ++ (a ++ c)) 0 5 (by decide)).trans
      ((extract_low q (a ++ c) 0 5 (by decide)).trans BitVec.extractLsb'_append_eq_right))

@[simp] theorem src1R_wordR : src1R (wordR d11 a s6 b c) = a :=
  (extract_low d11 (a ++ (s6 ++ (b ++ c))) 16 5 (by decide)).trans (extract_mid a (s6 ++ (b ++ c)))

@[simp] theorem shamtR_wordR : shamtR (wordR d11 a s6 b c) = s6 :=
  (extract_low d11 (a ++ (s6 ++ (b ++ c))) 10 6 (by decide)).trans
    ((extract_low a (s6 ++ (b ++ c)) 10 6 (by decide)).trans (extract_mid s6 (b ++ c)))

@[simp] theorem regAt5_wordR : regAt5 (wordR d11 a s6 b c) = b :=
  (extract_low d11 (a ++ (s6 ++ (b ++ c))) 5 5 (by decide)).trans
    ((extract_low a (s6 ++ (b ++ c)) 5 5 (by decide)).trans
      ((extract_low s6 (b ++ c) 5 5 (by decide)).trans (extract_mid b c)))

@[simp] theorem regAt0_wordR : regAt0 (wordR d11 a s6 b c) = c :=
  (extract_low d11 (a ++ (s6 ++ (b ++ c))) 0 5 (by decide)).trans
    ((extract_low a (s6 ++ (b ++ c)) 0 5 (by decide)).trans
      ((extract_low s6 (b ++ c) 0 5 (by decide)).trans BitVec.extractLsb'_append_eq_right))

end

/-! ### A word rebuilt from its parts -/

/-- Two neighbouring fields are one field. -/
theorem extract_join (w : Word) (lo n m : Nat) :
    w.extractLsb' (lo + m) n ++ w.extractLsb' lo m = w.extractLsb' lo (n + m) :=
  BitVec.extractLsb'_append_extractLsb'_eq_extractLsb' rfl

theorem wordB_of_fields (w : Word) : wordB (top w 6) (offsetB w) = w :=
  (extract_join w 0 6 26).trans BitVec.extractLsb'_eq_self

theorem wordCB_of_fields (w : Word) : wordCB (top w 8) (offsetCB w) (regAt0 w) = w := by
  have h := extract_join w 0 19 5
  have h' := extract_join w 0 8 24
  exact (congrArg (fun r : BitVec 24 => (top w 8 ++ r : Word)) h).trans
    (h'.trans BitVec.extractLsb'_eq_self)

theorem wordIM_of_fields (w : Word) : wordIM (top w 9) (scIM w) (fieldIM w) (regAt0 w) = w := by
  have h1 := extract_join w 0 16 5
  have h2 := extract_join w 0 2 21
  have h3 := extract_join w 0 9 23
  exact (congrArg (fun r : BitVec 21 => (top w 9 ++ (scIM w ++ r) : Word)) h1).trans
    ((congrArg (fun r : BitVec 23 => (top w 9 ++ r : Word)) h2).trans
      (h3.trans BitVec.extractLsb'_eq_self))

theorem wordI_of_fields (w : Word) : wordI (top w 10) (immI w) (regAt5 w) (regAt0 w) = w := by
  have h1 := extract_join w 0 5 5
  have h2 := extract_join w 0 12 10
  have h3 := extract_join w 0 10 22
  exact (congrArg (fun r : BitVec 10 => (top w 10 ++ (immI w ++ r) : Word)) h1).trans
    ((congrArg (fun r : BitVec 22 => (top w 10 ++ r : Word)) h2).trans
      (h3.trans BitVec.extractLsb'_eq_self))

theorem wordD_of_fields (w : Word) :
    wordD (top w 11) (immD w) (op2D w) (regAt5 w) (regAt0 w) = w := by
  have h1 := extract_join w 0 5 5
  have h2 := extract_join w 0 2 10
  have h3 := extract_join w 0 9 12
  have h4 := extract_join w 0 11 21
  exact (congrArg (fun r : BitVec 10 => (top w 11 ++ (immD w ++ (op2D w ++ r)) : Word)) h1).trans
    ((congrArg (fun r : BitVec 12 => (top w 11 ++ (immD w ++ r) : Word)) h2).trans
      ((congrArg (fun r : BitVec 21 => (top w 11 ++ r : Word)) h3).trans
        (h4.trans BitVec.extractLsb'_eq_self)))

theorem wordR_of_fields (w : Word) :
    wordR (top w 11) (src1R w) (shamtR w) (regAt5 w) (regAt0 w) = w := by
  have h1 := extract_join w 0 5 5
  have h2 := extract_join w 0 6 10
  have h3 := extract_join w 0 5 16
  have h4 := extract_join w 0 11 21
  exact (congrArg (fun r : BitVec 10 => (top w 11 ++ (src1R w ++ (shamtR w ++ r)) : Word)) h1).trans
    ((congrArg (fun r : BitVec 16 => (top w 11 ++ (src1R w ++ r) : Word)) h2).trans
      ((congrArg (fun r : BitVec 21 => (top w 11 ++ r : Word)) h3).trans
        (h4.trans BitVec.extractLsb'_eq_self)))

/-! ### Rows of the opcode map -/

/-- A mask that keeps the top bits compares the discriminator alone. -/
theorem and_high_mask {n m : Nat} (d : BitVec n) (r : BitVec m) :
    (d ++ r) &&& (BitVec.allOnes n ++ 0#m) = d ++ 0#m := by
  rw [BitVec.and_append]; simp

/-- The masks of R63 keep a word's top bits and clear the rest. -/
theorem mask6 (w : Word) : w &&& 0xFC000000#32 = (top w 6 ++ 0#26 : Word) := by
  conv_lhs => rw [← wordB_of_fields w]
  exact and_high_mask (top w 6) (offsetB w)

theorem mask8 (w : Word) : w &&& 0xFF000000#32 = (top w 8 ++ 0#24 : Word) := by
  conv_lhs => rw [← wordCB_of_fields w]
  exact and_high_mask (top w 8) (offsetCB w ++ regAt0 w)

theorem mask9 (w : Word) : w &&& 0xFF800000#32 = (top w 9 ++ 0#23 : Word) := by
  conv_lhs => rw [← wordIM_of_fields w]
  exact and_high_mask (top w 9) (scIM w ++ (fieldIM w ++ regAt0 w))

theorem mask10 (w : Word) : w &&& 0xFFC00000#32 = (top w 10 ++ 0#22 : Word) := by
  conv_lhs => rw [← wordI_of_fields w]
  exact and_high_mask (top w 10) (immI w ++ (regAt5 w ++ regAt0 w))

theorem mask11 (w : Word) : w &&& 0xFFE00000#32 = (top w 11 ++ 0#21 : Word) := by
  conv_lhs => rw [← wordR_of_fields w]
  exact and_high_mask (top w 11) (src1R w ++ (shamtR w ++ (regAt5 w ++ regAt0 w)))

/-- Two appends with the same lower part are equal exactly when their upper parts are. -/
theorem append_left_inj {n m : Nat} (d e : BitVec n) (r : BitVec m) : d ++ r = e ++ r ↔ d = e := by
  constructor
  · intro h
    have := congrArg (fun x => x.extractLsb' m n) h
    simpa only [BitVec.extractLsb'_append_eq_left] using this
  · rintro rfl; rfl

theorem and_mask6_eq (w : Word) (d : BitVec 6) : w &&& 0xFC000000#32 = (d ++ 0#26 : Word) ↔ top w 6 = d := by
  rw [mask6]; exact append_left_inj _ _ _

theorem and_mask8_eq (w : Word) (d : BitVec 8) : w &&& 0xFF000000#32 = (d ++ 0#24 : Word) ↔ top w 8 = d := by
  rw [mask8]; exact append_left_inj _ _ _

theorem and_mask9_eq (w : Word) (d : BitVec 9) : w &&& 0xFF800000#32 = (d ++ 0#23 : Word) ↔ top w 9 = d := by
  rw [mask9]; exact append_left_inj _ _ _

theorem and_mask10_eq (w : Word) (d : BitVec 10) : w &&& 0xFFC00000#32 = (d ++ 0#22 : Word) ↔ top w 10 = d := by
  rw [mask10]; exact append_left_inj _ _ _

theorem and_mask11_eq (w : Word) (d : BitVec 11) : w &&& 0xFFE00000#32 = (d ++ 0#21 : Word) ↔ top w 11 = d := by
  rw [mask11]; exact append_left_inj _ _ _

/-- A shorter discriminator is read from a longer one: `top w k` is the top of `top w n`. -/
theorem top_top (w : Word) {n k : Nat} (hk : k ≤ n) (hn : n ≤ 32) :
    top w k = (top w n).extractLsb' (n - k) k := by
  apply BitVec.eq_of_getLsbD_eq
  intro i hi
  simp only [top, BitVec.getLsbD_extractLsb', hi, decide_true, Bool.true_and]
  have h1 : n - k + i < n := by omega
  simp only [h1, decide_true, Bool.true_and]
  congr 1
  omega

end Sys2Proof.Laws
end

