-- ==== Sys2Proof/Laws/Memory.lean ====
section
/-! SUPPORT. The laws of the data memory: read after write, and the canonical form. -/

namespace Sys2Proof.Machine

theorem Memory.lookup_insert_same (m : Memory) (k : Nat) (v : Word) :
    (m.insert k v).lookup k = some v := by
  induction m with
  | nil => simp [Memory.insert, Memory.lookup]
  | cons c m ih =>
    obtain ⟨a, u⟩ := c
    unfold Memory.insert
    split
    · simp [Memory.lookup]
    · split
      · simp [Memory.lookup]
      · simp_all [Memory.lookup]

theorem Memory.lookup_insert_ne (m : Memory) {k j : Nat} (v : Word) (h : j ≠ k) :
    (m.insert k v).lookup j = m.lookup j := by
  induction m with
  | nil => simp [Memory.insert, Memory.lookup, h]
  | cons c m ih =>
    obtain ⟨a, u⟩ := c
    unfold Memory.insert
    split
    · simp [Memory.lookup, h]
    · split
      · subst_vars; simp [Memory.lookup, h]
      · simp [Memory.lookup, ih]

@[simp] theorem memRead_memWrite_same (m : Memory) (a v : Word) :
    memRead (memWrite m a v) a = some v := m.lookup_insert_same a.toNat v

theorem memRead_memWrite_ne (m : Memory) {a b : Word} (v : Word) (h : b ≠ a) :
    memRead (memWrite m a v) b = memRead m b :=
  m.lookup_insert_ne v fun e => h (BitVec.eq_of_toNat_eq e)

@[simp] theorem memRead_nil (a : Word) : memRead [] a = none := rfl

/-- A memory whose addresses all lie above `k` has no entry at `k`. -/
theorem Memory.lookup_eq_none_of_lt {m : Memory} {k : Nat} (h : ∀ c ∈ m, k < c.1) :
    m.lookup k = none := by
  induction m with
  | nil => rfl
  | cons c m ih =>
    have hc := h c (by simp)
    simp only [Memory.lookup]
    rw [if_neg (by omega)]
    exact ih fun d hd => h d (by simp [hd])

/-- The addresses of a memory after a write are the old ones and the written one. -/
theorem Memory.mem_insert {m : Memory} {k : Nat} {v : Word} {c : Nat × Word}
    (h : c ∈ m.insert k v) : c = (k, v) ∨ c ∈ m := by
  induction m with
  | nil => simpa [Memory.insert] using h
  | cons d m ih =>
    obtain ⟨a, u⟩ := d
    unfold Memory.insert at h
    split at h
    · simpa using h
    · split at h
      · rcases List.mem_cons.1 h with h | h
        · exact .inl h
        · exact .inr (by simp [h])
      · rcases List.mem_cons.1 h with h | h
        · exact .inr (by simp [h])
        · rcases ih h with h | h
          · exact .inl h
          · exact .inr (by simp [h])

/-- A write keeps the canonical form. -/
theorem Memory.insert_wf {m : Memory} (h : m.wf) {k : Nat} (hk : k < 2 ^ 32) (v : Word) :
    (m.insert k v).wf := by
  refine ⟨?_, fun c hc => ?_⟩
  · obtain ⟨hp, -⟩ := h
    induction m with
    | nil => simp [Memory.insert]
    | cons d m ih =>
      obtain ⟨a, u⟩ := d
      obtain ⟨hd, hp⟩ := List.pairwise_cons.1 hp
      unfold Memory.insert
      split
      · rename_i hlt
        refine List.pairwise_cons.2 ⟨fun c hc => ?_, List.pairwise_cons.2 ⟨hd, hp⟩⟩
        rcases List.mem_cons.1 hc with rfl | hc
        · exact hlt
        · exact Nat.lt_trans hlt (hd c hc)
      · split
        · subst_vars; exact List.pairwise_cons.2 ⟨hd, hp⟩
        · refine List.pairwise_cons.2 ⟨fun c hc => ?_, ih hp⟩
          rcases Memory.mem_insert hc with rfl | hc
          · simp only; omega
          · exact hd c hc
  · rcases Memory.mem_insert hc with rfl | hc
    · exact hk
    · exact h.2 c hc

theorem memWrite_wf {m : Memory} (h : m.wf) (a v : Word) : (memWrite m a v).wf :=
  Memory.insert_wf h a.isLt v

/-- A filtered memory stays in canonical form. -/
theorem Memory.filter_wf {m : Memory} (h : m.wf) (p : Nat × Word → Bool) : Memory.wf (m.filter p) :=
  ⟨h.1.filter p, fun c hc => h.2 c (List.mem_filter.1 hc).1⟩

/-- In canonical form an entry is what its address reads as. -/
theorem Memory.lookup_eq_some_iff {m : Memory} (h : m.Pairwise fun c d => c.1 < d.1) (k : Nat) (v : Word) :
    m.lookup k = some v ↔ (k, v) ∈ m := by
  induction m with
  | nil => simp [Memory.lookup]
  | cons c m ih =>
    obtain ⟨a, u⟩ := c
    obtain ⟨hd, hp⟩ := List.pairwise_cons.1 h
    simp only [Memory.lookup]
    split
    · subst_vars
      constructor
      · intro e; simp_all
      · intro hm
        rcases List.mem_cons.1 hm with e | hm
        · simp_all
        · exact absurd (hd _ hm) (Nat.lt_irrefl _)
    · rw [ih hp]
      constructor
      · intro hm; exact List.mem_cons_of_mem _ hm
      · intro hm
        rcases List.mem_cons.1 hm with e | hm
        · simp_all
        · exact hm

/-- In canonical form a filtered memory reads as the entries that pass. -/
theorem Memory.lookup_filter {m : Memory} (h : m.wf) (p : Nat × Word → Bool) (k : Nat) :
    Memory.lookup (m.filter p) k = (m.lookup k).filter fun v => p (k, v) := by
  apply Option.ext
  intro v
  rw [Memory.lookup_eq_some_iff (Memory.filter_wf h p).1]
  simp [Option.filter_eq_some_iff, Memory.lookup_eq_some_iff h.1]

/-- Two rising memories with the same entries are the same list. -/
theorem Memory.eq_of_mem_iff {m n : Memory} (hm : m.Pairwise fun c d => c.1 < d.1)
    (hn : n.Pairwise fun c d => c.1 < d.1) (h : ∀ c, c ∈ m ↔ c ∈ n) : m = n := by
  induction m generalizing n with
  | nil =>
    cases n with
    | nil => rfl
    | cons c n => exact absurd ((h c).2 (by simp)) (by simp)
  | cons c m ih =>
    cases n with
    | nil => exact absurd ((h c).1 (by simp)) (by simp)
    | cons d n =>
      obtain ⟨hc, hm'⟩ := List.pairwise_cons.1 hm
      obtain ⟨hd, hn'⟩ := List.pairwise_cons.1 hn
      have e : c = d := by
        rcases List.mem_cons.1 ((h c).1 (by simp)) with e | e
        · exact e
        · rcases List.mem_cons.1 ((h d).2 (by simp)) with e' | e'
          · exact e'.symm
          · have := hd _ e
            have := hc _ e'
            omega
      subst e
      refine congrArg (c :: ·) (ih hm' hn' fun x => ⟨fun hx => ?_, fun hx => ?_⟩)
      · rcases List.mem_cons.1 ((h x).1 (by simp [hx])) with rfl | e
        · exact absurd (hc _ hx) (Nat.lt_irrefl _)
        · exact e
      · rcases List.mem_cons.1 ((h x).2 (by simp [hx])) with rfl | e
        · exact absurd (hd _ hx) (Nat.lt_irrefl _)
        · exact e

/-- The canonical form is canonical: memories that read alike at every address are the same list. -/
theorem Memory.eq_of_read_eq {m n : Memory} (hm : m.wf) (hn : n.wf)
    (h : ∀ a : Word, memRead m a = memRead n a) : m = n := by
  refine Memory.eq_of_mem_iff hm.1 hn.1 fun c => ?_
  have key : ∀ {m n : Memory}, m.wf → n.wf → (∀ a : Word, memRead m a = memRead n a) → c ∈ m → c ∈ n := by
    intro m n hm hn h hc
    have hk := h (BitVec.ofNat 32 c.1)
    have e : (BitVec.ofNat 32 c.1).toNat = c.1 := by
      have := hm.2 c hc
      simp only [BitVec.toNat_ofNat]
      omega
    simp only [memRead, e] at hk
    exact (Memory.lookup_eq_some_iff hn.1 _ _).1 (hk ▸ (Memory.lookup_eq_some_iff hm.1 _ _).2 hc)
  exact ⟨key hm hn h, key hn hm fun a => (h a).symm⟩

end Sys2Proof.Machine
end

