-- ==== Sys2Proof/Laws/State.lean ====
section
/-! SUPPORT. One lemma per field per update of the state, true by rfl, and the register file's
read-after-write laws. -/

namespace Sys2Proof.Machine

/-! ### Registers -/

@[simp] theorem State.readReg_writeReg_same (s : State) (i : RegIdx) (v : Word) :
    (s.writeReg i v).readReg i = v := by
  simp [State.readReg, State.writeReg]

theorem State.readReg_writeReg_ne (s : State) {i j : RegIdx} (v : Word) (h : j ≠ i) :
    (s.writeReg i v).readReg j = s.readReg j := by
  have : i.toNat ≠ j.toNat := fun e => h (BitVec.eq_of_toNat_eq e.symm)
  simp [State.readReg, State.writeReg, this]

/-- States with equal register files read equal registers. -/
theorem State.readReg_congr {s t : State} (h : s.regs = t.regs) (i : RegIdx) :
    s.readReg i = t.readReg i := by
  unfold State.readReg
  simp only [h]

/-! ### `writeReg` -/

@[simp] theorem State.writeReg_regs (s : State) (i : RegIdx) (v : Word) : (s.writeReg i v).regs = s.regs.set i.toNat v i.isLt := rfl
@[simp] theorem State.writeReg_pc (s : State) (i : RegIdx) (v : Word) : (s.writeReg i v).pc = s.pc := rfl
@[simp] theorem State.writeReg_runState (s : State) (i : RegIdx) (v : Word) : (s.writeReg i v).runState = s.runState := rfl
@[simp] theorem State.writeReg_cycle (s : State) (i : RegIdx) (v : Word) : (s.writeReg i v).cycle = s.cycle := rfl
@[simp] theorem State.writeReg_dmem (s : State) (i : RegIdx) (v : Word) : (s.writeReg i v).dmem = s.dmem := rfl
@[simp] theorem State.writeReg_dataBase (s : State) (i : RegIdx) (v : Word) : (s.writeReg i v).dataBase = s.dataBase := rfl
@[simp] theorem State.writeReg_hasData (s : State) (i : RegIdx) (v : Word) : (s.writeReg i v).hasData = s.hasData := rfl
@[simp] theorem State.writeReg_imem (s : State) (i : RegIdx) (v : Word) : (s.writeReg i v).imem = s.imem := rfl
@[simp] theorem State.writeReg_watchdog (s : State) (i : RegIdx) (v : Word) : (s.writeReg i v).watchdog = s.watchdog := rfl
@[simp] theorem State.writeReg_trace (s : State) (i : RegIdx) (v : Word) : (s.writeReg i v).trace = s.trace := rfl

/-! ### `advance` -/

@[simp] theorem State.advance_regs (s : State) : s.advance.regs = s.regs := rfl
@[simp] theorem State.advance_pc (s : State) : s.advance.pc = s.pc + 4#32 := rfl
@[simp] theorem State.advance_runState (s : State) : s.advance.runState = s.runState := rfl
@[simp] theorem State.advance_cycle (s : State) : s.advance.cycle = s.cycle := rfl
@[simp] theorem State.advance_dmem (s : State) : s.advance.dmem = s.dmem := rfl
@[simp] theorem State.advance_dataBase (s : State) : s.advance.dataBase = s.dataBase := rfl
@[simp] theorem State.advance_hasData (s : State) : s.advance.hasData = s.hasData := rfl
@[simp] theorem State.advance_imem (s : State) : s.advance.imem = s.imem := rfl
@[simp] theorem State.advance_watchdog (s : State) : s.advance.watchdog = s.watchdog := rfl
@[simp] theorem State.advance_trace (s : State) : s.advance.trace = s.trace := rfl
@[simp] theorem State.advance_readReg (s : State) (r : RegIdx) : s.advance.readReg r = s.readReg r := rfl

/-! ### `store` -/

@[simp] theorem State.store_regs (s : State) (a v : Word) : (s.store a v).regs = s.regs := rfl
@[simp] theorem State.store_pc (s : State) (a v : Word) : (s.store a v).pc = s.pc := rfl
@[simp] theorem State.store_runState (s : State) (a v : Word) : (s.store a v).runState = s.runState := rfl
@[simp] theorem State.store_cycle (s : State) (a v : Word) : (s.store a v).cycle = s.cycle := rfl
@[simp] theorem State.store_dmem (s : State) (a v : Word) : (s.store a v).dmem = memWrite s.dmem a v := rfl
@[simp] theorem State.store_dataBase (s : State) (a v : Word) : (s.store a v).dataBase = s.dataBase := rfl
@[simp] theorem State.store_hasData (s : State) (a v : Word) : (s.store a v).hasData = s.hasData := rfl
@[simp] theorem State.store_imem (s : State) (a v : Word) : (s.store a v).imem = s.imem := rfl
@[simp] theorem State.store_watchdog (s : State) (a v : Word) : (s.store a v).watchdog = s.watchdog := rfl
@[simp] theorem State.store_trace (s : State) (a v : Word) : (s.store a v).trace = s.trace := rfl
@[simp] theorem State.store_readReg (s : State) (a v : Word) (r : RegIdx) : (s.store a v).readReg r = s.readReg r := rfl

/-! ### `latchBreak` -/

@[simp] theorem State.latchBreak_regs (s : State) : s.latchBreak.regs = s.regs := rfl
@[simp] theorem State.latchBreak_pc (s : State) : s.latchBreak.pc = s.pc := rfl
@[simp] theorem State.latchBreak_runState (s : State) : s.latchBreak.runState = s.runState.afterBreak := rfl
@[simp] theorem State.latchBreak_cycle (s : State) : s.latchBreak.cycle = s.cycle := rfl
@[simp] theorem State.latchBreak_dmem (s : State) : s.latchBreak.dmem = s.dmem := rfl
@[simp] theorem State.latchBreak_dataBase (s : State) : s.latchBreak.dataBase = s.dataBase := rfl
@[simp] theorem State.latchBreak_hasData (s : State) : s.latchBreak.hasData = s.hasData := rfl
@[simp] theorem State.latchBreak_imem (s : State) : s.latchBreak.imem = s.imem := rfl
@[simp] theorem State.latchBreak_watchdog (s : State) : s.latchBreak.watchdog = s.watchdog := rfl
@[simp] theorem State.latchBreak_trace (s : State) : s.latchBreak.trace = s.trace := rfl
@[simp] theorem State.latchBreak_readReg (s : State) (r : RegIdx) : s.latchBreak.readReg r = s.readReg r := rfl

/-! ### `withMaxSteps` -/

@[simp] theorem State.withMaxSteps_regs (s : State) (m : Option Nat) : (s.withMaxSteps m).regs = s.regs := rfl
@[simp] theorem State.withMaxSteps_pc (s : State) (m : Option Nat) : (s.withMaxSteps m).pc = s.pc := rfl
@[simp] theorem State.withMaxSteps_runState (s : State) (m : Option Nat) : (s.withMaxSteps m).runState = s.runState := rfl
@[simp] theorem State.withMaxSteps_cycle (s : State) (m : Option Nat) : (s.withMaxSteps m).cycle = s.cycle := rfl
@[simp] theorem State.withMaxSteps_dmem (s : State) (m : Option Nat) : (s.withMaxSteps m).dmem = s.dmem := rfl
@[simp] theorem State.withMaxSteps_dataBase (s : State) (m : Option Nat) : (s.withMaxSteps m).dataBase = s.dataBase := rfl
@[simp] theorem State.withMaxSteps_hasData (s : State) (m : Option Nat) : (s.withMaxSteps m).hasData = s.hasData := rfl
@[simp] theorem State.withMaxSteps_imem (s : State) (m : Option Nat) : (s.withMaxSteps m).imem = s.imem := rfl
@[simp] theorem State.withMaxSteps_watchdog (s : State) (m : Option Nat) : (s.withMaxSteps m).watchdog = m := rfl
@[simp] theorem State.withMaxSteps_trace (s : State) (m : Option Nat) : (s.withMaxSteps m).trace = s.trace := rfl
@[simp] theorem State.withMaxSteps_readReg (s : State) (m : Option Nat) (r : RegIdx) : (s.withMaxSteps m).readReg r = s.readReg r := rfl

/-! ### `retire` -/

@[simp] theorem retire_regs (i : Instr) (s t : State) : (retire i s t).regs = t.regs := rfl
@[simp] theorem retire_pc (i : Instr) (s t : State) : (retire i s t).pc = t.pc := rfl
@[simp] theorem retire_runState (i : Instr) (s t : State) : (retire i s t).runState = t.runState := rfl
@[simp] theorem retire_cycle (i : Instr) (s t : State) : (retire i s t).cycle = t.cycle + 1 := rfl
@[simp] theorem retire_dmem (i : Instr) (s t : State) : (retire i s t).dmem = t.dmem := rfl
@[simp] theorem retire_dataBase (i : Instr) (s t : State) : (retire i s t).dataBase = t.dataBase := rfl
@[simp] theorem retire_hasData (i : Instr) (s t : State) : (retire i s t).hasData = t.hasData := rfl
@[simp] theorem retire_imem (i : Instr) (s t : State) : (retire i s t).imem = t.imem := rfl
@[simp] theorem retire_watchdog (i : Instr) (s t : State) : (retire i s t).watchdog = t.watchdog.map (· - 1) := rfl
@[simp] theorem retire_trace (i : Instr) (s t : State) : (retire i s t).trace = snapshot i s t :: t.trace := rfl
@[simp] theorem retire_readReg (i : Instr) (s t : State) (r : RegIdx) : (retire i s t).readReg r = t.readReg r := rfl

/-! ### `load` -/

@[simp] theorem State.load_regs (stream : List Word) : (State.load stream).regs = Vector.replicate 32 0#32 := rfl
@[simp] theorem State.load_pc (stream : List Word) : (State.load stream).pc = 96#32 := rfl
@[simp] theorem State.load_runState (stream : List Word) : (State.load stream).runState = .running := rfl
@[simp] theorem State.load_cycle (stream : List Word) : (State.load stream).cycle = 1 := rfl
@[simp] theorem State.load_dmem (stream : List Word) : (State.load stream).dmem = (scanStream stream).dmem := rfl
@[simp] theorem State.load_dataBase (stream : List Word) : (State.load stream).dataBase = (scanStream stream).dataBase := rfl
@[simp] theorem State.load_hasData (stream : List Word) : (State.load stream).hasData = (scanStream stream).stored := rfl
@[simp] theorem State.load_imem (stream : List Word) : (State.load stream).imem = stream := rfl
@[simp] theorem State.load_watchdog (stream : List Word) : (State.load stream).watchdog = none := rfl
@[simp] theorem State.load_trace (stream : List Word) : (State.load stream).trace = [] := rfl

@[simp] theorem State.load_readReg (stream : List Word) (r : RegIdx) : (State.load stream).readReg r = 0#32 := by
  simp [State.readReg]

/-- Loading nothing is reset itself. -/
theorem State.load_nil : State.load [] = State.reset := rfl

/-! ### `branchTo` -/

/-- All that a branch can do (42_branch.md R105): the pc alone changes, to the mapped target of a taken
branch, else to the next line. -/
theorem State.branchTo_cases (s : State) (offset : Word) (taken : Bool) :
    (taken = true ∧ s.mapped (s.pc + 4#32 * offset) = true ∧
      s.branchTo offset taken = { s with pc := s.pc + 4#32 * offset }) ∨
    ((taken = false ∨ s.mapped (s.pc + 4#32 * offset) = false) ∧
      s.branchTo offset taken = s.advance) := by
  unfold State.branchTo
  cases taken <;> cases h : s.mapped (s.pc + 4#32 * offset) <;> simp [h]

theorem State.branchTo_pc (s : State) (offset : Word) (taken : Bool) :
    (s.branchTo offset taken).pc =
      if taken && s.mapped (s.pc + 4#32 * offset) then s.pc + 4#32 * offset else s.pc + 4#32 := by
  unfold State.branchTo
  simp only
  split <;> rfl

@[simp] theorem State.branchTo_regs (s : State) (offset : Word) (taken : Bool) :
    (s.branchTo offset taken).regs = s.regs := by
  unfold State.branchTo; simp only; split <;> rfl

@[simp] theorem State.branchTo_runState (s : State) (offset : Word) (taken : Bool) :
    (s.branchTo offset taken).runState = s.runState := by
  unfold State.branchTo; simp only; split <;> rfl

@[simp] theorem State.branchTo_cycle (s : State) (offset : Word) (taken : Bool) :
    (s.branchTo offset taken).cycle = s.cycle := by
  unfold State.branchTo; simp only; split <;> rfl

@[simp] theorem State.branchTo_dmem (s : State) (offset : Word) (taken : Bool) :
    (s.branchTo offset taken).dmem = s.dmem := by
  unfold State.branchTo; simp only; split <;> rfl

@[simp] theorem State.branchTo_dataBase (s : State) (offset : Word) (taken : Bool) :
    (s.branchTo offset taken).dataBase = s.dataBase := by
  unfold State.branchTo; simp only; split <;> rfl

@[simp] theorem State.branchTo_hasData (s : State) (offset : Word) (taken : Bool) :
    (s.branchTo offset taken).hasData = s.hasData := by
  unfold State.branchTo; simp only; split <;> rfl

@[simp] theorem State.branchTo_imem (s : State) (offset : Word) (taken : Bool) :
    (s.branchTo offset taken).imem = s.imem := by
  unfold State.branchTo; simp only; split <;> rfl

@[simp] theorem State.branchTo_watchdog (s : State) (offset : Word) (taken : Bool) :
    (s.branchTo offset taken).watchdog = s.watchdog := by
  unfold State.branchTo; simp only; split <;> rfl

@[simp] theorem State.branchTo_trace (s : State) (offset : Word) (taken : Bool) :
    (s.branchTo offset taken).trace = s.trace := by
  unfold State.branchTo; simp only; split <;> rfl

@[simp] theorem State.branchTo_readReg (s : State) (offset : Word) (taken : Bool) (r : RegIdx) :
    (s.branchTo offset taken).readReg r = s.readReg r :=
  State.readReg_congr (State.branchTo_regs s offset taken) r

end Sys2Proof.Machine
end

