-- ==== Sys2Proof/Laws/Ops.lean ====
section
/-! SUPPORT. What each shared operation does, said once: the result, and all that it leaves alone. -/

namespace Sys2Proof.Machine

/-! ### Signed and unsigned readings -/

/-- The unsigned reading of a word is its signed reading modulo 2^32. -/
theorem toNat_eq_toInt_emod (x : Word) : (x.toNat : Int) = x.toInt % 2 ^ 32 := by
  rw [BitVec.toInt_eq_toNat_cond]
  have := x.isLt
  split <;> omega

/-- Sign extension keeps the signed reading. -/
theorem toInt_sext32 {n : Nat} (v : BitVec n) (h : n ≤ 32) : (sext32 v).toInt = v.toInt :=
  BitVec.toInt_signExtend_of_le h

/-- A base plus four times a sign-extended field, modulo 2^32: branch targets and effective addresses. -/
theorem toNat_add_four_mul_sext32 {n : Nat} (a : Word) (v : BitVec n) (h : n ≤ 32) :
    ((a + 4#32 * sext32 v).toNat : Int) = (a.toNat + 4 * v.toInt) % 2 ^ 32 := by
  have e := toNat_eq_toInt_emod (sext32 v)
  rw [toInt_sext32 v h] at e
  rw [BitVec.toNat_add, BitVec.toNat_mul]
  push_cast
  rw [e]
  norm_num
  omega

/-! ### The three register-writing shapes -/

/-- A register write followed by the advance of the pc changes nothing else. -/
theorem State.writeReg_advance_onlyRegWritten (s : State) (dest : RegIdx) (v : Word) :
    OnlyRegWritten dest s (s.writeReg dest v).advance :=
  ⟨fun _ h => by simpa using State.readReg_writeReg_ne s v h, fun _ => rfl, rfl,
    ⟨rfl, rfl, rfl, rfl, rfl, rfl⟩, rfl⟩

@[simp] theorem State.immediateOp_readReg_dest (op : Word → Word → Word) (imm : BitVec 12)
    (src1 dest : RegIdx) (s : State) :
    (s.immediateOp op imm src1 dest).readReg dest = op (s.readReg src1) (sext32 imm) := by
  simp [State.immediateOp]

theorem State.immediateOp_onlyRegWritten (op : Word → Word → Word) (imm : BitVec 12)
    (src1 dest : RegIdx) (s : State) : OnlyRegWritten dest s (s.immediateOp op imm src1 dest) :=
  s.writeReg_advance_onlyRegWritten dest _

@[simp] theorem State.registerOp_readReg_dest (op : Word → Word → Word) (src1 src2 dest : RegIdx)
    (s : State) :
    (s.registerOp op src1 src2 dest).readReg dest = op (s.readReg src1) (s.readReg src2) := by
  simp [State.registerOp]

theorem State.registerOp_onlyRegWritten (op : Word → Word → Word) (src1 src2 dest : RegIdx)
    (s : State) : OnlyRegWritten dest s (s.registerOp op src1 src2 dest) :=
  s.writeReg_advance_onlyRegWritten dest _

@[simp] theorem State.shiftOp_readReg_dest (op : Word → BitVec 6 → Word) (shamt : BitVec 6)
    (src2 dest : RegIdx) (s : State) :
    (s.shiftOp op shamt src2 dest).readReg dest = op (s.readReg src2) shamt := by
  simp [State.shiftOp]

theorem State.shiftOp_onlyRegWritten (op : Word → BitVec 6 → Word) (shamt : BitVec 6)
    (src2 dest : RegIdx) (s : State) : OnlyRegWritten dest s (s.shiftOp op shamt src2 dest) :=
  s.writeReg_advance_onlyRegWritten dest _

/-! ### The pc and the instruction store -/

theorem State.advance_onlyPcChanged (s : State) : OnlyPcChanged s s.advance :=
  ⟨fun _ => rfl, fun _ => rfl, rfl, ⟨rfl, rfl, rfl, rfl, rfl, rfl⟩⟩

theorem State.branchTo_onlyPcChanged (s : State) (offset : Word) (taken : Bool) :
    OnlyPcChanged s (s.branchTo offset taken) :=
  ⟨fun r => by simp, fun a => by simp, by simp, by simp, by simp, by simp, by simp, by simp, by simp⟩

/-- Fetch reads the instruction stream alone (20_memory.md R40). -/
theorem State.fetch_congr {s t : State} (h : s.imem = t.imem) (a : Word) : s.fetch a = t.fetch a := by
  unfold State.fetch; rw [h]

theorem State.mapped_congr {s t : State} (h : s.imem = t.imem) (a : Word) : s.mapped a = t.mapped a := by
  unfold State.mapped; rw [State.fetch_congr h]

end Sys2Proof.Machine
end

