-- ==== Sys2Proof/Laws/PerInstr.lean ====
section
/-! SUPPORT. Statements about every instruction as syntax, one lemma per constructor. -/

/-- The word of every instruction but UNKNOWN is selected by a row of the opcode map that has the
instruction's mnemonic (30_encoding.md R63). -/
def Sys2Proof.Laws.EncodingInRow.Statement (i : Sys2Proof.Instr) : Prop :=
  i.mnemonic = .unknown ∨
    ∃ r ∈ Sys2Proof.opcodeTable, r.mnemonic = i.mnemonic ∧ r.selects (Sys2Proof.encode i) = true

namespace Sys2Proof.Laws

/-- A row of the map, given by its place, selects a word. -/
theorem encodingInRow_of_row {i : Instr} (k : Nat) (hk : k < opcodeTable.length)
    (hm : opcodeTable[k].mnemonic = i.mnemonic)
    (hs : encode i &&& opcodeTable[k].mask = opcodeTable[k].value) : EncodingInRow.Statement i :=
  .inr ⟨opcodeTable[k], List.getElem_mem hk, hm, by simpa [OpcodeRow.selects] using hs⟩

theorem EncodingInRow.brk : EncodingInRow.Statement .brk := encodingInRow_of_row 0 (by decide) rfl (by decide)

theorem EncodingInRow.nop : EncodingInRow.Statement .nop := encodingInRow_of_row 1 (by decide) rfl (by decide)

theorem EncodingInRow.unknown (word : Word) : EncodingInRow.Statement (.unknown word) := .inl rfl

theorem EncodingInRow.b (offset : BitVec 26) :
    EncodingInRow.Statement (.b offset) :=
  encodingInRow_of_row 2 (by decide) rfl ((Laws.and_mask6_eq _ 0b000101#6).2 ((top_wordB _ _ (by decide)).trans (by decide)))

theorem EncodingInRow.cbz (offset : BitVec 19) (cond : RegIdx) :
    EncodingInRow.Statement (.cbz offset cond) :=
  encodingInRow_of_row 3 (by decide) rfl ((Laws.and_mask8_eq _ 0b10110100#8).2 ((top_wordCB _ _ _ (by decide)).trans (by decide)))

theorem EncodingInRow.cbnz (offset : BitVec 19) (cond : RegIdx) :
    EncodingInRow.Statement (.cbnz offset cond) :=
  encodingInRow_of_row 4 (by decide) rfl ((Laws.and_mask8_eq _ 0b10110101#8).2 ((top_wordCB _ _ _ (by decide)).trans (by decide)))

theorem EncodingInRow.movz (sc : BitVec 2) (field : BitVec 16) (dest : RegIdx) :
    EncodingInRow.Statement (.movz sc field dest) :=
  encodingInRow_of_row 5 (by decide) rfl ((Laws.and_mask9_eq _ 0b110100101#9).2 ((top_wordIM _ _ _ _ (by decide)).trans (by decide)))

theorem EncodingInRow.movk (sc : BitVec 2) (field : BitVec 16) (dest : RegIdx) :
    EncodingInRow.Statement (.movk sc field dest) :=
  encodingInRow_of_row 6 (by decide) rfl ((Laws.and_mask9_eq _ 0b111100101#9).2 ((top_wordIM _ _ _ _ (by decide)).trans (by decide)))

theorem EncodingInRow.addi (imm : BitVec 12) (src1 : RegIdx) (dest : RegIdx) :
    EncodingInRow.Statement (.addi imm src1 dest) :=
  encodingInRow_of_row 7 (by decide) rfl ((Laws.and_mask10_eq _ 0b1001000100#10).2 ((top_wordI _ _ _ _ (by decide)).trans (by decide)))

theorem EncodingInRow.subi (imm : BitVec 12) (src1 : RegIdx) (dest : RegIdx) :
    EncodingInRow.Statement (.subi imm src1 dest) :=
  encodingInRow_of_row 8 (by decide) rfl ((Laws.and_mask10_eq _ 0b1101000100#10).2 ((top_wordI _ _ _ _ (by decide)).trans (by decide)))

theorem EncodingInRow.stur (imm : BitVec 9) (op2 : BitVec 2) (src1 : RegIdx) (dest : RegIdx) :
    EncodingInRow.Statement (.stur imm op2 src1 dest) :=
  encodingInRow_of_row 9 (by decide) rfl ((Laws.and_mask11_eq _ 0b11111000000#11).2 ((top_wordD _ _ _ _ _ (by decide)).trans (by decide)))

theorem EncodingInRow.ldur (imm : BitVec 9) (op2 : BitVec 2) (src1 : RegIdx) (dest : RegIdx) :
    EncodingInRow.Statement (.ldur imm op2 src1 dest) :=
  encodingInRow_of_row 10 (by decide) rfl ((Laws.and_mask11_eq _ 0b11111000010#11).2 ((top_wordD _ _ _ _ _ (by decide)).trans (by decide)))

theorem EncodingInRow.add (src1 : RegIdx) (shamt : BitVec 6) (src2 : RegIdx) (dest : RegIdx) :
    EncodingInRow.Statement (.add src1 shamt src2 dest) :=
  encodingInRow_of_row 11 (by decide) rfl ((Laws.and_mask11_eq _ 0b10001011000#11).2 ((top_wordR _ _ _ _ _ (by decide)).trans (by decide)))

theorem EncodingInRow.sub (src1 : RegIdx) (shamt : BitVec 6) (src2 : RegIdx) (dest : RegIdx) :
    EncodingInRow.Statement (.sub src1 shamt src2 dest) :=
  encodingInRow_of_row 12 (by decide) rfl ((Laws.and_mask11_eq _ 0b11001011000#11).2 ((top_wordR _ _ _ _ _ (by decide)).trans (by decide)))

theorem EncodingInRow.and (src1 : RegIdx) (shamt : BitVec 6) (src2 : RegIdx) (dest : RegIdx) :
    EncodingInRow.Statement (.and src1 shamt src2 dest) :=
  encodingInRow_of_row 13 (by decide) rfl ((Laws.and_mask11_eq _ 0b10001010000#11).2 ((top_wordR _ _ _ _ _ (by decide)).trans (by decide)))

theorem EncodingInRow.orr (src1 : RegIdx) (shamt : BitVec 6) (src2 : RegIdx) (dest : RegIdx) :
    EncodingInRow.Statement (.orr src1 shamt src2 dest) :=
  encodingInRow_of_row 14 (by decide) rfl ((Laws.and_mask11_eq _ 0b10101010000#11).2 ((top_wordR _ _ _ _ _ (by decide)).trans (by decide)))

theorem EncodingInRow.eor (src1 : RegIdx) (shamt : BitVec 6) (src2 : RegIdx) (dest : RegIdx) :
    EncodingInRow.Statement (.eor src1 shamt src2 dest) :=
  encodingInRow_of_row 15 (by decide) rfl ((Laws.and_mask11_eq _ 0b11001010000#11).2 ((top_wordR _ _ _ _ _ (by decide)).trans (by decide)))

theorem EncodingInRow.eor2 (src1 : RegIdx) (shamt : BitVec 6) (src2 : RegIdx) (dest : RegIdx) :
    EncodingInRow.Statement (.eor2 src1 shamt src2 dest) :=
  encodingInRow_of_row 16 (by decide) rfl ((Laws.and_mask11_eq _ 0b11101010000#11).2 ((top_wordR _ _ _ _ _ (by decide)).trans (by decide)))

theorem EncodingInRow.lsl (src1 : RegIdx) (shamt : BitVec 6) (src2 : RegIdx) (dest : RegIdx) :
    EncodingInRow.Statement (.lsl src1 shamt src2 dest) :=
  encodingInRow_of_row 17 (by decide) rfl ((Laws.and_mask11_eq _ 0b11010011011#11).2 ((top_wordR _ _ _ _ _ (by decide)).trans (by decide)))

theorem EncodingInRow.lsr (src1 : RegIdx) (shamt : BitVec 6) (src2 : RegIdx) (dest : RegIdx) :
    EncodingInRow.Statement (.lsr src1 shamt src2 dest) :=
  encodingInRow_of_row 18 (by decide) rfl ((Laws.and_mask11_eq _ 0b11010011010#11).2 ((top_wordR _ _ _ _ _ (by decide)).trans (by decide)))

theorem EncodingInRow.asr (src1 : RegIdx) (shamt : BitVec 6) (src2 : RegIdx) (dest : RegIdx) :
    EncodingInRow.Statement (.asr src1 shamt src2 dest) :=
  encodingInRow_of_row 19 (by decide) rfl ((Laws.and_mask11_eq _ 0b11010011100#11).2 ((top_wordR _ _ _ _ _ (by decide)).trans (by decide)))

end Sys2Proof.Laws
end

