-- ==== Sys2Proof/Laws/Step.lean ====
section
/-! SUPPORT. What a dispatched instruction and a step can do, said once. -/

namespace Sys2Proof.Machine

/-- The five shapes of effect of the instruction set (40_execution_step.md R83). -/
inductive Effect (s : State) : Instr → State → Prop where
  | latch : Effect s .brk s.latchBreak.advance
  | nothing {i : Instr} (h : i ≠ .brk) : Effect s i s.advance
  | branch {i : Instr} (h : i ≠ .brk) (offset : Word) (taken : Bool) : Effect s i (s.branchTo offset taken)
  | register {i : Instr} (h : i ≠ .brk) (dest : RegIdx) (v : Word) : Effect s i (s.writeReg dest v).advance
  | memory {i : Instr} (h : i ≠ .brk) (a v : Word) : Effect s i (s.store a v).advance

/-- Every instruction completes, with one of the five effects. -/
theorem exec_effect (i : Instr) (s : State) : ∃ t, exec i s = .next t ∧ Effect s i t := by
  cases i with
  | brk => exact ⟨_, rfl, .latch⟩
  | nop => exact ⟨_, rfl, .nothing (by simp)⟩
  | b o => exact ⟨_, rfl, .branch (by simp) _ _⟩
  | cbz o c => exact ⟨_, rfl, .branch (by simp) _ _⟩
  | cbnz o c => exact ⟨_, rfl, .branch (by simp) _ _⟩
  | movz q f d => exact ⟨_, rfl, .nothing (by simp)⟩
  | movk q f d => exact ⟨_, rfl, .nothing (by simp)⟩
  | addi m a d => exact ⟨_, rfl, .register (by simp) _ _⟩
  | subi m a d => exact ⟨_, rfl, .register (by simp) _ _⟩
  | stur m q a d => exact ⟨_, rfl, .memory (by simp) _ _⟩
  | ldur m q a d =>
    simp only [exec, execLdur]
    split
    · exact ⟨_, rfl, .register (by simp) _ _⟩
    · exact ⟨_, rfl, .nothing (by simp)⟩
  | add a h b d => exact ⟨_, rfl, .register (by simp) _ _⟩
  | sub a h b d => exact ⟨_, rfl, .register (by simp) _ _⟩
  | and a h b d => exact ⟨_, rfl, .register (by simp) _ _⟩
  | orr a h b d => exact ⟨_, rfl, .register (by simp) _ _⟩
  | eor a h b d => exact ⟨_, rfl, .register (by simp) _ _⟩
  | eor2 a h b d => exact ⟨_, rfl, .register (by simp) _ _⟩
  | lsl a h b d => exact ⟨_, rfl, .register (by simp) _ _⟩
  | lsr a h b d => exact ⟨_, rfl, .register (by simp) _ _⟩
  | asr a h b d => exact ⟨_, rfl, .register (by simp) _ _⟩
  | unknown w => exact ⟨_, rfl, .nothing (by simp)⟩

/-- The effect behind a known next state. -/
theorem effect_of_exec {i : Instr} {s t : State} (h : exec i s = .next t) : Effect s i t := by
  obtain ⟨t', h', e⟩ := exec_effect i s
  rw [h'] at h
  exact (Host.Outcome.next.inj h) ▸ e

/-- An enabled step fetches a word, dispatches it and retires it. -/
theorem step_of_fetch {s : State} {w : Word} (hr : s.runState ≠ .halted) (hf : s.fetch s.pc = some w)
    (hw : s.watchdog ≠ some 0) :
    ∃ t, exec (decode w) s = .next t ∧ step s = .next (retire (decode w) s t) := by
  obtain ⟨t, ht, -⟩ := exec_effect (decode w) s
  refine ⟨t, ht, ?_⟩
  cases hs : s.runState with
  | halted => exact absurd hs hr
  | running | haltArmed =>
    cases hd : s.watchdog with
    | none => simp [step, hs, hf, hd, ht]
    | some n =>
      cases n with
      | zero => exact absurd hd hw
      | succ n => simp [step, hs, hf, hd, ht]

/-- All that a step with a next state has done. -/
theorem step_next_cases {s t : State} (h : step s = .next t) :
    ∃ w u, s.runState ≠ .halted ∧ s.fetch s.pc = some w ∧ s.watchdog ≠ some 0 ∧
      exec (decode w) s = .next u ∧ Effect s (decode w) u ∧ t = retire (decode w) s u := by
  have hr : s.runState ≠ .halted := by
    intro e; simp [step, e] at h
  cases hf : s.fetch s.pc with
  | none => unfold step at h; split at h <;> simp_all
  | some w =>
    have hw : s.watchdog ≠ some 0 := by
      intro e; unfold step at h; split at h <;> simp_all
    obtain ⟨u, hu, hs⟩ := step_of_fetch hr hf hw
    rw [hs] at h
    exact ⟨w, u, hr, rfl, hw, hu, effect_of_exec hu, (Host.Outcome.next.inj h).symm⟩

end Sys2Proof.Machine
end

