-- ==== Sys2Proof/Laws/Run.lean ====
section
/-! SUPPORT. Runs of several steps, one step at a time, and the induction over a run packaged once. -/

namespace Sys2Proof.Machine

theorem run_zero (s : State) : core.run 0 s = .next s := rfl

theorem run_succ_of_next {k : Nat} {s u : State} (h : step s = .next u) :
    core.run (k + 1) s = core.run k u := by
  have h' : core.step s = .next u := h
  simp only [Host.Core.run, h']

theorem run_succ_of_fault {k : Nat} {s : State} {f : Fault} (h : step s = .fault f) :
    core.run (k + 1) s = .fault f := by
  have h' : core.step s = .fault f := h
  simp only [Host.Core.run, h']

/-- A run of `k + 1` steps that goes on is one step and a run of `k`. -/
theorem run_succ_next_cases {k : Nat} {s t : State} (h : core.run (k + 1) s = .next t) :
    ∃ u, step s = .next u ∧ core.run k u = .next t := by
  cases hs : step s with
  | next u => exact ⟨u, rfl, run_succ_of_next hs ▸ h⟩
  | fault f => rw [run_succ_of_fault hs] at h; cases h
  | refused r =>
    have h' : core.step s = .refused r := hs
    simp only [Host.Core.run, h'] at h
    cases h

/-- What every step keeps, every run keeps. -/
theorem run_keeps {P : State → State → Prop} (refl : ∀ s, P s s)
    (trans : ∀ s u t, P s u → P u t → P s t) (keep : ∀ s t, step s = .next t → P s t)
    {k : Nat} {s t : State} (h : core.run k s = .next t) : P s t := by
  induction k generalizing s with
  | zero => cases Host.Outcome.next.inj h; exact refl _
  | succ k ih =>
    obtain ⟨u, hu, hr⟩ := run_succ_next_cases h
    exact trans _ _ _ (keep _ _ hu) (ih hr)

end Sys2Proof.Machine
end

