-- ==== Sys2Proof/Laws/Trace.lean ====
section
/-! SUPPORT. What a memory dump shows. -/

namespace Sys2Proof.Machine

/-- The words of a dump stand at `base + 4*k` modulo 2^32. -/
theorem toNat_dumpAddr (base : Word) (k : Nat) : (dumpAddr base k).toNat = (base.toNat + 4 * k) % 2 ^ 32 := by
  simp only [dumpAddr, BitVec.toNat_add, BitVec.toNat_mul, BitVec.toNat_ofNat]
  omega

/-- A dump has a `k`-th word exactly when its address, taken as an integer, is a data address. -/
theorem lt_dumpLen_iff (base : Word) (k : Nat) : k < dumpLen base ↔ base.toNat + 4 * k < 2 ^ 32 := by
  have := base.isLt
  simp only [dumpLen]
  omega

/-- Within a dump the addresses do not wrap. -/
theorem toNat_dumpAddr_of_lt {base : Word} {k : Nat} (h : k < dumpLen base) :
    (dumpAddr base k).toNat = base.toNat + 4 * k := by
  rw [toNat_dumpAddr, Nat.mod_eq_of_lt ((lt_dumpLen_iff base k).1 h)]

/-- A cell at the address of some word of a dump is shown exactly when it does not hold 0. -/
theorem shownBy_dumpAddr {base : Word} {k : Nat} (h : k < dumpLen base) (v : Word) :
    shownBy base ((dumpAddr base k).toNat, v) = (v != 0#32) := by
  simp [shownBy, toNat_dumpAddr_of_lt h]

/-- A cell below the base is not shown. -/
theorem shownBy_below {base : Word} {a : Nat} (h : a < base.toNat) (v : Word) : shownBy base (a, v) = false := by
  simp [shownBy, h]

/-- Leaving out the cells that a dump shows as 0 changes no word of it. -/
theorem Dump.word_eq_dumpRead {m : Memory} (hm : m.wf) {base : Word} {k : Nat} (h : k < dumpLen base) :
    (Dump.mk base (m.filter (shownBy base))).word k = some (dumpRead m (dumpAddr base k)) := by
  simp only [Dump.word, if_pos h, dumpRead, memRead, Memory.lookup_filter hm]
  cases Memory.lookup m (dumpAddr base k).toNat with
  | none => rfl
  | some v =>
    by_cases hv : v = 0#32
    · simp [hv, Option.filter, shownBy_dumpAddr h]
    · simp [hv, Option.filter, shownBy_dumpAddr h]

/-- After its last word a dump has none. -/
theorem Dump.word_eq_none (d : Dump) {k : Nat} (h : 2 ^ 32 ≤ d.base.toNat + 4 * k) : d.word k = none :=
  if_neg fun hk => absurd ((lt_dumpLen_iff d.base k).1 hk) (Nat.not_lt.2 h)

/-- An entry that a filter leaves out changes nothing of what the filter keeps. -/
theorem Memory.filter_insert (p : Nat × Word → Bool) {k : Nat} (hp : ∀ v, p (k, v) = false) (m : Memory) (v : Word) :
    List.filter p (m.insert k v) = m.filter p := by
  induction m with
  | nil => simp [Memory.insert, hp]
  | cons c m ih =>
    obtain ⟨a, u⟩ := c
    unfold Memory.insert
    split
    · simp [hp]
    · split
      · subst_vars; simp [hp]
      · simp [List.filter_cons, ih]

end Sys2Proof.Machine
end

