-- ==== Sys2Proof/Tests/Slice0.lean ====
section
/-! SUPPORT. Tests: the ill-formed terms WellFormed refuses, words written out from the spec's encodings,
single steps with the results 95_test_vectors.md gives, and for each statement with hypotheses a state and
operands that meet them. -/

namespace Sys2Proof.Tests

open Sys2Proof.Machine

/-! ### WellFormed -/

theorem test_wellFormed_refuses_unknown_break : (Instr.unknown 0xFEDEFFE7).wellFormed = false := by decide

theorem test_wellFormed_refuses_unknown_nop : (Instr.unknown 0).wellFormed = false := by decide

theorem test_wellFormed_refuses_unknown_of_a_row :
    (Instr.unknown 0x8B010043).wellFormed = false ∧ (Instr.unknown 0x16000000).wellFormed = false ∧
    (Instr.unknown 0xD3808025).wellFormed = false := by decide

theorem test_wellFormed_takes_unknown : (Instr.unknown 5).wellFormed = true := by decide

/-! ### Decoding: 95_test_vectors.md 2.1 -/

theorem test_decode_brk :
    decode 0b11111110110111101111111111100111#32 = .brk := by decide

theorem test_decode_unknown :
    decode 0b11111110110111101111111111100110#32 = .unknown 0xFEDEFFE6 ∧
    decode 0b00000000000000000000000000000001#32 = .unknown 0x00000001 ∧
    decode 0b10000000000000000000000000000000#32 = .unknown 0x80000000 ∧
    decode 0b00010000000000000000000000000000#32 = .unknown 0x10000000 ∧
    decode 0b00011000000000000000000000000000#32 = .unknown 0x18000000 ∧
    decode 0b10110110000000000000000000000000#32 = .unknown 0xB6000000 ∧
    decode 0b11010010000000000000000000000000#32 = .unknown 0xD2000000 ∧
    decode 0b10010001010000000000000000000000#32 = .unknown 0x91400000 ∧
    decode 0b11111000001000000000000000000000#32 = .unknown 0xF8200000 ∧
    decode 0b11010011101000000000000000000000#32 = .unknown 0xD3A00000 ∧
    decode 0b10001011001000000000000000000000#32 = .unknown 0x8B200000 ∧
    decode 0b10101011000000000000000000000000#32 = .unknown 0xAB000000 ∧
    decode 0b00000000000000000000000000000101#32 = .unknown 0x00000005 ∧
    decode 0b11111111111111111111111111111101#32 = .unknown 0xFFFFFFFD ∧
    decode 0b11111111111111111111111111111111#32 = .unknown 0xFFFFFFFF ∧
    decode 0b01111111111111111111111111111111#32 = .unknown 0x7FFFFFFF := by decide

theorem test_decode_nop :
    decode 0b00000000000000000000000000000000#32 = .nop := by decide

theorem test_decode_b :
    decode 0b00010100000000000000000000000010#32 = .b 2 ∧
    decode 0b00010111111111111111111111111111#32 = .b (-1) ∧
    decode 0b00010100000000000000000000000000#32 = .b 0 ∧
    decode 0b00010110000000000000000000000000#32 = .b (-33554432) ∧
    decode 0b00010101111111111111111111111111#32 = .b 33554431 := by decide

theorem test_decode_cbz :
    decode 0b10110100000000000000000001011111#32 = .cbz 2 31 ∧
    decode 0b10110100011111111111111111100000#32 = .cbz 262143 0 ∧
    decode 0b10110100100000000000000000000000#32 = .cbz (-262144) 0 := by decide

theorem test_decode_cbnz :
    decode 0b10110101111111111111111111100001#32 = .cbnz (-1) 1 := by decide

theorem test_decode_movz :
    decode 0b11010010100000000000000101000001#32 = .movz 0 10 1 ∧
    decode 0b11010010111000000000000000000000#32 = .movz 3 0 0 := by decide

theorem test_decode_movk :
    decode 0b11110010101000000000000000100010#32 = .movk 1 1 2 := by decide

theorem test_decode_addi :
    decode 0b10010001000000000001010000000001#32 = .addi 5 0 1 ∧
    decode 0b10010001001111111110110000100001#32 = .addi (-5) 1 1 ∧
    decode 0b10010001000111111111110000100010#32 = .addi 2047 1 2 ∧
    decode 0b10010001001000000000000000100010#32 = .addi (-2048) 1 2 ∧
    decode 0b10010001000000000000011111111111#32 = .addi 1 31 31 := by decide

theorem test_decode_subi :
    decode 0b11010001001111111111110001000011#32 = .subi (-1) 2 3 := by decide

theorem test_decode_stur :
    decode 0b11111000000000000000000010000011#32 = .stur 0 0 4 3 ∧
    decode 0b11111000000011111111000010000011#32 = .stur 255 0 4 3 ∧
    decode 0b11111000000100000000000010000011#32 = .stur (-256) 0 4 3 := by decide

theorem test_decode_ldur :
    decode 0b11111000010111111111000010000101#32 = .ldur (-1) 0 4 5 ∧
    decode 0b11111000010000000010110010000101#32 = .ldur 2 3 4 5 := by decide

theorem test_decode_add :
    decode 0b10001011000000010000000001000011#32 = .add 1 0 2 3 ∧
    decode 0b10001011000000011111110001000011#32 = .add 1 63 2 3 := by decide

theorem test_decode_sub :
    decode 0b11001011000000010000000001000011#32 = .sub 1 0 2 3 := by decide

theorem test_decode_and :
    decode 0b10001010000000010000000001000011#32 = .and 1 0 2 3 := by decide

theorem test_decode_orr :
    decode 0b10101010000000010000000001000011#32 = .orr 1 0 2 3 := by decide

theorem test_decode_eor :
    decode 0b11001010000000010000000001000011#32 = .eor 1 0 2 3 := by decide

theorem test_decode_eor2 :
    decode 0b11101010000000010000000001000011#32 = .eor2 1 0 2 3 := by decide

theorem test_decode_lsl :
    decode 0b11010011011000000000100000100101#32 = .lsl 0 2 1 5 ∧
    decode 0b11010011011001110001000000100101#32 = .lsl 7 4 1 5 := by decide

theorem test_decode_lsr :
    decode 0b11010011010000001111110000100101#32 = .lsr 0 63 1 5 := by decide

theorem test_decode_asr :
    decode 0b11010011100000001000000000100101#32 = .asr 0 32 1 5 := by decide

/-- 30_encoding.md R50, R51: the line of 95_test_vectors.md 2.1 row 1, a short line, a letter. -/
theorem test_wordOfLine :
    wordOfLine "11111110110111101111111111100111".toList = some 0xFEDEFFE7#32 ∧
    wordOfLine "1111111011011110111111111110011".toList = none ∧
    wordOfLine "x1111110110111101111111111100111".toList = none := by decide

/-- 95_test_vectors.md E1: the immediate of ADDI, from the characters 10 to 21. -/
theorem test_signedField :
    signedField "10010001000000000001010000000001".toList 10 22 = 5 ∧
    signedField "10010001001111111110110000100001".toList 10 22 = -5 := by decide

theorem test_decodeTableWord :
    decodeTableWord 32 0xD3600825 = some (.lsl 0 2 1 5) ∧ decodeTableWord 40 0xD3600825 = none := by decide

/-! ### Single steps: 95_test_vectors.md 2.2 -/

/-- One line at 96, and registers set. -/
def onWord (w : Word) (regs : List (RegIdx × Word)) : State :=
  regs.foldl (fun s p => s.writeReg p.1 p.2) (State.load [w])

/-- `n` lines from 96, the pc at the line of index `k` holding `w`, and registers set. -/
def onLine (n k : Nat) (w : Word) (regs : List (RegIdx × Word)) : State :=
  regs.foldl (fun s p => s.writeReg p.1 p.2)
    { State.load ((List.replicate n 0#32).set k w) with pc := BitVec.ofNat 32 (96 + 4 * k) }

/-- A state with data memory. -/
def withMem (s : State) (m : Memory) : State := { s with dmem := m }

/-- The state after the next step, if there is one. -/
def after (s : State) : Option State :=
  match step s with
  | .next t => some t
  | _ => none

/-- A register and the pc after the next step. -/
def regAfter (r : RegIdx) (s : State) : Option (Word × Word) := (after s).map fun t => (t.readReg r, t.pc)

/-- The pc after the next step. -/
def pcAfter (s : State) : Option Word := (after s).map (·.pc)

theorem test_addi_wraps : regAfter 2 (onWord 0x911FFC22 [(1, 0x7FFFFFFF)]) = some (0x800007FE, 100) := by decide

theorem test_addi_register_31 : regAfter 31 (onWord 0x910007FF [(31, 1)]) = some (2, 100) := by decide

theorem test_subi_below_zero : regAfter 1 (onWord 0xD1000421 [(1, 0)]) = some (0xFFFFFFFF, 100) := by decide

theorem test_subi_negative_immediate : regAfter 3 (onWord 0xD13FFC43 [(2, 0xFFFFFFFF)]) = some (0, 100) := by decide

theorem test_add_wraps : regAfter 3 (onWord 0x8B010043 [(1, 0xFFFFFFFF), (2, 1)]) = some (0, 100) := by decide

theorem test_add_ignores_shamt :
    regAfter 3 (onWord 0x8B01FC43 [(1, 5), (2, 0xFFFFFFFD)]) = some (2, 100) := by decide

theorem test_sub_order : regAfter 3 (onWord 0xCB010043 [(1, 5), (2, 7)]) = some (0xFFFFFFFE, 100) := by decide

theorem test_sub_sources_swapped : regAfter 3 (onWord 0xCB020023 [(1, 5), (2, 7)]) = some (2, 100) := by decide

theorem test_and :
    regAfter 3 (onWord 0x8A010043 [(1, 0xF0F0A5A5), (2, 0x0FF05A5F)]) = some (0x00F00005, 100) := by decide

theorem test_orr :
    regAfter 3 (onWord 0xAA010043 [(1, 0xF0F0A5A5), (2, 0x0FF05A5F)]) = some (0xFFF0FFFF, 100) := by decide

theorem test_eor :
    regAfter 3 (onWord 0xCA010043 [(1, 0xF0F0A5A5), (2, 0x0FF05A5F)]) = some (0xFF00FFFA, 100) := by decide

theorem test_eor2 :
    regAfter 3 (onWord 0xEA010043 [(1, 0xF0F0A5A5), (2, 0x0FF05A5F)]) = some (0xFF00FFFA, 100) := by decide

theorem test_lsl_by_31 : regAfter 5 (onWord 0xD3607C25 [(1, 0x80000001)]) = some (0x80000000, 100) := by decide

theorem test_lsl_by_32 : regAfter 5 (onWord 0xD3608025 [(1, 0x80000001)]) = some (0, 100) := by decide

theorem test_lsr_of_negative : regAfter 5 (onWord 0xD3407C25 [(1, 0xFFFFFFFF)]) = some (1, 100) := by decide

theorem test_lsr_ignores_src1 :
    regAfter 5 (onWord 0xD3471025 [(1, 0x80000001), (7, 9)]) = some (0x08000000, 100) := by decide

theorem test_asr_by_31 : regAfter 5 (onWord 0xD3807C25 [(1, 0x80000001)]) = some (0xFFFFFFFF, 100) := by decide

theorem test_asr_by_63_of_positive : regAfter 5 (onWord 0xD380FC25 [(1, 0x7FFFFFFF)]) = some (0, 100) := by decide

theorem test_stur_address_wraps :
    (after (onWord 0xF8100083 [(3, 7)])).map (·.dmem) = some [(0xFFFFFC00, 7#32)] := by decide

theorem test_stur_same_register :
    (after (onWord 0xF8000084 [(4, 200)])).map (·.dmem) = some [(200, 200#32)] := by decide

theorem test_ldur_negative_offset :
    regAfter 5 (withMem (onWord 0xF85FF085 [(4, 128)]) [(124, 5#32)]) = some (5, 100) := by decide

theorem test_ldur_absent_leaves_register :
    regAfter 5 (withMem (onWord 0xF8400085 [(4, 2), (5, 0x77)]) [(0, 1#32), (4, 2#32)]) = some (0x77, 100) := by
  decide

theorem test_b_to_mapped : pcAfter (onLine 4 0 0x14000003 []) = some 108 := by decide

theorem test_b_past_last_line : pcAfter (onLine 4 2 0x14000002 []) = some 108 := by decide

theorem test_cbz_taken : pcAfter (onLine 4 0 0xB400005F []) = some 104 := by decide

theorem test_cbz_not_taken : pcAfter (onLine 4 0 0xB400005F [(31, 1)]) = some 100 := by decide

theorem test_cbnz_taken : pcAfter (onLine 4 2 0xB5FFFFE1 [(1, 0x80000000)]) = some 100 := by decide

theorem test_cbnz_not_taken : pcAfter (onLine 4 2 0xB5FFFFE1 []) = some 108 := by decide

theorem test_movz : regAfter 1 (onWord 0xD2800141 [(1, 3)]) = some (3, 100) := by decide

theorem test_movk : regAfter 2 (onWord 0xF2A00022 [(2, 3)]) = some (3, 100) := by decide

theorem test_break_arms :
    (after (onWord 0xFEDEFFE7 [])).map (fun t => (t.runState, t.pc)) = some (.haltArmed, 100) := by decide

theorem test_break_halts :
    (after { onWord 0xFEDEFFE7 [] with runState := .haltArmed }).map (fun t => (t.runState, t.pc)) =
      some (.halted, 100) := by decide

theorem test_nop : regAfter 1 (onWord 0 [(1, 3)]) = some (3, 100) := by decide

theorem test_unknown : regAfter 1 (onWord 5 [(1, 3)]) = some (3, 100) := by decide

theorem test_unknown_text :
    (after (onWord 5 [])).map (fun t => t.trace.map Record.text) = some ["UNKNOWN INSTRUCTION"] := by decide

theorem test_withFetchWord :
    regAfter 1 (State.reset.withFetchWord 32 0x91001401) = some (5, 100) := by decide

/-- 30_encoding.md R72, with the words of program P1 of 95_test_vectors.md. -/
theorem test_listing :
    (listing [0x91001401#32, 0x14000002#32, 0xFEDEFFE7#32]).map (fun p => lineText p.2) =
      ["ADDI R1, R0, #5", "B #108", "BREAK"] := by decide

/-! ### The loader: 95_test_vectors.md 2.3 -/

theorem test_load_two_segments :
    (scanStream [0x91001401#32, Config.breakWord, 7#32, Config.breakWord, 9#32, Config.breakWord, 11#32]) =
      ⟨true, some 120#32, [(104, 7#32), (120, 11#32)], true⟩ := by decide

theorem test_load_empty_segment :
    scanStream [0x91001401#32, 0x91001401#32, Config.breakWord] = ⟨true, some 108#32, [], false⟩ := by decide

/-- 95_test_vectors.md E8, program P3: the dump starts at DATA_BASE. -/
theorem test_dump_of_record :
    (after (onWord 0xFEDEFFE7 [])).map (fun t => t.trace.map (·.dump)) = some [none] ∧
    (after (State.load [Config.breakWord, 5#32, 0xFFFFFFFD#32])).map
      (fun t => t.trace.map fun r => r.dump.map fun d => d.words 3) =
      some [some [5#32, 0xFFFFFFFD#32, 0#32]] := by decide

/-- 45_load_store.md R121 (c), by hand: from 0xFFFFFFF8 the data addresses go on to 0xFFFFFFFC and no further;
the cell at 0 lies below the base, and the cell at 0xFFFFFFFA at no multiple of 4 from it. -/
theorem test_dump_ends_at_top :
    (State.dump { withMem State.reset [(0, 7#32), (0xFFFFFFFA, 9#32), (0xFFFFFFFC, 5#32)] with
      hasData := true, dataBase := some 0xFFFFFFF8#32 }).map (fun d => (d.words 4, d.cells)) =
      some ([0#32, 5#32], [(0xFFFFFFFC, 5#32)]) := by decide

/-! ### Witnesses: what meets the hypotheses of each statement -/

/-- Four lines: a store to address 0, BREAK, the data word 5, and a load of address 0. -/
def sample : State :=
  (State.load [0xF8000083#32, Config.breakWord, 5#32, 0xF8400085#32]).writeReg 3 7#32

theorem sample_inv : sample.Inv where
  streamFits := by decide
  pcOnLine := ⟨0, by decide, by decide⟩
  memWf := by decide
  cycleCounts := by decide
  latchCounts := by decide
  dataBaseLoaded := by decide
  hasDataLoaded := by decide
  loadedPresent := fun _ h => h

/-- An empty stream: the pc is not mapped. -/
theorem empty_inv : State.reset.Inv where
  streamFits := by decide
  pcOnLine := ⟨0, by decide, by decide⟩
  memWf := by decide
  cycleCounts := by decide
  latchCounts := by decide
  dataBaseLoaded := by decide
  hasDataLoaded := by decide
  loadedPresent := fun _ h => h

theorem witness_DecodeOfEncodeGivesInstruction :
    (Instr.unknown 0xFEDEFFE6).wellFormed = true ∧ (Instr.eor2 31 63 0 31).wellFormed = true := by decide

theorem witness_AnyRowOrderGivesDecodersMnemonic :
    opcodeTable.reverse.Perm opcodeTable := List.reverse_perm _

theorem witness_BreakAndNopAreComparedInFull :
    (0xFEDEFFE6#32).extractLsb' 21 11 = 0b11111110110#11 ∧ 0xFEDEFFE6#32 ≠ 0xFEDEFFE7#32 ∧
    (0xFEC00000#32).extractLsb' 21 11 = 0b11111110110#11 := by decide

theorem witness_SmallDataWordsDecodeToUnknown :
    (0x03FFFFFF#32).toNat < 2 ^ 26 ∧ 0x03FFFFFF#32 ≠ 0#32 ∧ (1#32).toNat < 2 ^ 26 ∧
    0xFFE00000 ≤ (0xFFE00000#32).toNat ∧ 0xFFE00000 ≤ (0xFFFFFFFF#32).toNat := by decide

/-- The characters 0 and 31 of a line, and fields of one character and of all 32. -/
theorem witness_LineCharacterIsWordBit_FieldOfLineIsFieldOfWord :
    wordOfLine "10000000000000000000000000000001".toList = some 0x80000001#32 ∧ 0 < 32 ∧ 31 < 32 ∧ 32 ≤ 32 := by
  decide

theorem witness_SignExtensionKeepsSignedValue_ShownTargetIsBranchTarget : 0 ≤ 32 ∧ 26 ≤ 32 ∧ 32 ≤ 32 := by decide

theorem witness_LoaderStoresExactlyDataSegments :
    96 + 4 * [Config.breakWord, 5#32, Config.breakWord].length < 2 ^ 32 ∧
    InDataSegment [Config.breakWord, 5#32, Config.breakWord] 1 5#32 :=
  ⟨by decide, by decide, by decide, by decide⟩

theorem witness_LoaderSetsDataBaseAndHasData :
    ∃ k, OpensSegment [Config.breakWord, 5#32] k ∧ (∀ j, k < j → ¬ OpensSegment [Config.breakWord, 5#32] j) ∧
      InDataSegment [Config.breakWord, 5#32] 1 5#32 ∧ Config.breakWord ∉ [5#32] := by
  refine ⟨0, ⟨rfl, rfl⟩, fun j hj h => ?_, ⟨rfl, by decide, rfl⟩, by decide⟩
  match j, h.1 with
  | 1, h1 => exact absurd h1 (by decide)
  | j + 2, h1 => exact absurd h1 (by simp)

/-- A good stream; a malformed line outside a data segment, and one inside. -/
theorem witness_StreamIsLoadedOrRefusedByName :
    ["00000000000000000000000000000101".toList].map wordOfLine = [5#32].map some ∧
    96 + 4 * [5#32].length < 2 ^ 32 ∧
    ([] : List Line).map wordOfLine = [].map some ∧ wordOfLine ['2'] = none ∧
    ["11111110110111101111111111100111".toList].map wordOfLine = [Config.breakWord].map some ∧
    sentinelsIn [Config.breakWord] % 2 = 1 ∧ sentinelsIn [] % 2 ≠ 1 := by decide

theorem witness_LoadedStreamMeetsInvariant : 96 + 4 * [Config.breakWord, 5#32].length < 2 ^ 32 := by decide

theorem witness_StepKeepsInvariant : sample.Inv ∧ ∃ t, step sample = .next t := ⟨sample_inv, _, rfl⟩

theorem witness_StepRunsDecodedInstruction :
    sample.runState ≠ .halted ∧ sample.fetch sample.pc = some 0xF8000083#32 ∧ sample.watchdog ≠ some 0 := by decide

/-- The first line, the last line, one past it, and a pc that is no line address. -/
theorem witness_FetchReadsTheLineAtItsAddress :
    sample.fetch 96 = some 0xF8000083#32 ∧ sample.fetch 108 = some 0xF8400085#32 ∧ sample.fetch 112 = none ∧
    sample.fetch 98 = none ∧ sample.fetch 92 = none := by decide

theorem witness_StepEnabledExactlyWhenRunningAndMapped :
    (sample.Inv ∧ sample.watchdog = none ∧ sample.runState ≠ .halted ∧ sample.mapped sample.pc = true) ∧
    State.reset.Inv ∧ State.reset.watchdog = none ∧ State.reset.runState ≠ .halted ∧
      State.reset.mapped State.reset.pc = false :=
  ⟨⟨sample_inv, by decide⟩, empty_inv, by decide⟩

theorem witness_StepStopsByName :
    ({ sample with runState := .halted } : State).runState = .halted ∧
    (State.reset.runState ≠ .halted ∧ State.reset.mapped State.reset.pc = false) ∧
    (sample.withMaxSteps (some 0)).runState ≠ .halted ∧
      (sample.withMaxSteps (some 0)).mapped (sample.withMaxSteps (some 0)).pc = true ∧
      (sample.withMaxSteps (some 0)).watchdog = some 0 := by decide

theorem witness_EveryWordCompletes : sample.Enabled := by decide

/-- Without data and with data; the first word of the dump, its last, and the first place after it. -/
theorem witness_StepEmitsOneRecord :
    (∃ t, sample.Inv ∧ step sample = .next t ∧ sample.fetch sample.pc = some 0xF8000083#32) ∧
    sample.hasData = true ∧ (∃ base, sample.dataBase = some base ∧ (104#32).toNat = base.toNat + 4 * 0 ∧
      (0xFFFFFFFC#32).toNat = base.toNat + 4 * 0x3FFFFFE5 ∧ 2 ^ 32 ≤ base.toNat + 4 * 0x3FFFFFE6) ∧
    (State.reset.withFetchWord 32 5).hasData = false ∧ ∃ t, step (State.reset.withFetchWord 32 5) = .next t :=
  ⟨⟨_, sample_inv, rfl, by decide⟩, by decide, ⟨104#32, by decide⟩, by decide, _, rfl⟩

/-- An absent address, and the same address present with 0. -/
theorem witness_DumpHidesPresence :
    (withMem sample []).dmem.wf ∧ (withMem sample [(8, 0#32)]).dmem.wf ∧
    (withMem sample []).hasData = (withMem sample [(8, 0#32)]).hasData ∧
    (withMem sample []).dataBase = (withMem sample [(8, 0#32)]).dataBase ∧
    (∀ a : Word, dumpRead (withMem sample []).dmem a = dumpRead (withMem sample [(8, 0#32)]).dmem a) ∧
    (withMem sample []).dmem ≠ (withMem sample [(8, 0#32)]).dmem := by
  refine ⟨by decide, by decide, rfl, rfl, fun a => ?_, by decide⟩
  simp only [withMem, dumpRead, memRead, Memory.lookup]
  split <;> rfl

theorem witness_CycleCountsStepsAndNothingReadsIt :
    ∃ t, step sample = .next t ∧ core.run 1 sample = .next t := ⟨_, rfl, rfl⟩

/-- A run that goes on and a run that ends, from states that differ in the counter alone. -/
theorem witness_RunsIgnoreCounterAndDataBase :
    SameToPrograms sample { sample with cycle := 9, dataBase := none } ∧ (∃ t, core.run 2 sample = .next t) ∧
    SameToPrograms State.reset { State.reset with cycle := 9 } ∧
      core.run 1 State.reset = .fault .streamExhausted :=
  ⟨⟨rfl, rfl, rfl, rfl, rfl, rfl⟩, ⟨_, rfl⟩, ⟨rfl, rfl, rfl, rfl, rfl, rfl⟩, rfl⟩

/-- As many steps as the watchdog allows. -/
theorem witness_WatchdogBoundsTheRun :
    (sample.withMaxSteps (some 2)).watchdog = some 2 ∧ ∃ t, core.run 2 (sample.withMaxSteps (some 2)) = .next t :=
  ⟨rfl, _, rfl⟩

theorem witness_SelfBranchRunsForEver :
    (State.load [0x14000000#32]).fetch (State.load [0x14000000#32]).pc = some 0x14000000#32 ∧
    (State.load [0x14000000#32]).runState ≠ .halted ∧ (State.load [0x14000000#32]).watchdog = none := by decide

/-- The step from `sample` is a store, which writes no register, 31 among them. -/
theorem witness_NoRegisterIsHardWired :
    (0 : RegIdx) ≠ 31 ∧ (∃ t, core.run 1 sample = .next t) ∧
    ∀ j u w, j < 1 → core.run j sample = .next u → u.fetch u.pc = some w → mayWrite (decode w) ≠ some 31 := by
  refine ⟨by decide, ⟨_, rfl⟩, fun j u w hj hu hf => ?_⟩
  obtain rfl : j = 0 := by omega
  cases Host.Outcome.next.inj hu
  cases hf
  decide

theorem witness_AtMostOneRegisterWritten :
    ∃ t, exec (.addi 5 0 31) sample = .next t ∧ t.readReg 31 ≠ sample.readReg 31 := ⟨_, rfl, by decide⟩

theorem witness_OnlySturWritesMemory :
    ∃ t, exec (.ldur 0 0 4 5) sample = .next t ∧ (Instr.ldur 0 0 4 5).mnemonic ≠ .stur ∧
      memPresent sample.dmem 104 = true := ⟨_, rfl, by decide⟩

/-- No request, a write, a read of an absent cell and a read of a present one. -/
theorem witness_MemoryChangesByPortRequest :
    ((∃ t, exec .nop sample = .next t) ∧ memRequest .nop sample = none) ∧
    ((∃ t, exec (.stur 0 0 4 3) sample = .next t) ∧ memRequest (.stur 0 0 4 3) sample = some ⟨0, true, 7⟩) ∧
    ((∃ t, exec (.ldur 0 0 4 5) sample = .next t) ∧ memRequest (.ldur 0 0 4 5) sample = some ⟨0, false, 0⟩ ∧
      memPresent sample.dmem 0 = false) ∧
    (∃ t, exec (.ldur 26 0 4 5) sample = .next t) ∧ memRequest (.ldur 26 0 4 5) sample = some ⟨104, false, 0⟩ ∧
      memPresent sample.dmem 104 = true :=
  ⟨⟨⟨_, rfl⟩, rfl⟩, ⟨⟨_, rfl⟩, by decide⟩, ⟨⟨_, rfl⟩, by decide⟩, ⟨_, rfl⟩, by decide⟩

/-- The step from `sample` stores to 0, so 4 is an address it does not store to. -/
theorem witness_CellKeepsValueUntilStoredTo :
    (∃ t, core.run 1 sample = .next t) ∧ storesTo sample 0 ∧
    ∀ j u, j < 1 → core.run j sample = .next u → ¬ storesTo u 4 := by
  refine ⟨⟨_, rfl⟩, ⟨_, _, rfl, rfl, rfl, by decide⟩, fun j u hj hu => ?_⟩
  obtain rfl : j = 0 := by omega
  cases Host.Outcome.next.inj hu
  rintro ⟨w, q, hw, hq, -, ha⟩
  cases hw
  cases hq
  revert ha
  decide

theorem witness_StoresNeverReachInstructions : ∃ t, core.run 2 sample = .next t := ⟨_, rfl⟩

theorem witness_NextPcIsSequentialOrMappedTarget :
    ∃ t, step (onLine 4 0 0x14000003 []) = .next t ∧
      (onLine 4 0 0x14000003 []).fetch (onLine 4 0 0x14000003 []).pc = some 0x14000003#32 := ⟨_, rfl, by decide⟩

/-- Another word; BREAK in Running; BREAK in HaltArmed. -/
theorem witness_OnlyBreakMovesTheLatch :
    ((∃ t, step (onWord 0 []) = .next t) ∧ (onWord 0 []).fetch (onWord 0 []).pc = some 0#32) ∧
    ((∃ t, step (onWord 0xFEDEFFE7 []) = .next t) ∧
      (onWord 0xFEDEFFE7 []).fetch (onWord 0xFEDEFFE7 []).pc = some 0xFEDEFFE7#32 ∧
      (onWord 0xFEDEFFE7 []).runState = .running) ∧
    (∃ t, step { onWord 0xFEDEFFE7 [] with runState := .haltArmed } = .next t) :=
  ⟨⟨⟨_, rfl⟩, by decide⟩, ⟨⟨_, rfl⟩, by decide⟩, _, rfl⟩

theorem witness_HaltedIsTerminalAndLatchNeverDisarmed :
    ({ sample with runState := .halted } : State).runState = .halted ∧
    (∃ t, exec .brk { sample with runState := .halted } = .next t) ∧
    (∃ t, core.run 1 { sample with runState := .haltArmed } = .next t) := ⟨rfl, ⟨_, rfl⟩, _, rfl⟩

/-- An absent address and a present one. -/
theorem witness_MemoryReadsWhatWasWritten :
    Memory.wf [(8, 3#32)] ∧ memPresent [(8, 3#32)] 4 = false ∧ memRead [(8, 3#32)] 8 = some 3#32 := by decide

theorem witness_MisalignedCellsDoNotOverlap : 0 < 1 ∧ 1 < 4 ∧ 0 < 3 ∧ 3 < 4 := by decide

theorem witness_NopOnlyAdvances :
    (onWord 0 []).runState ≠ .halted ∧ (onWord 0 []).watchdog ≠ some 0 ∧
    (onWord 0 []).fetch (onWord 0 []).pc = some 0x00000000#32 := by decide

theorem witness_UnknownOnlyAdvances :
    (onWord 5 []).runState ≠ .halted ∧ (onWord 5 []).watchdog ≠ some 0 ∧
    (onWord 5 []).fetch (onWord 5 []).pc = some 5#32 ∧ (decode 5#32).mnemonic = .unknown := by decide

theorem witness_BreakMovesLatchAndAdvances :
    sample.runState ≠ .halted ∧ ({ sample with runState := .haltArmed } : State).runState ≠ .halted := by decide

/-- A mapped target, one past the last line, one below the stream, and the most negative offset. -/
theorem witness_BranchGoesToMappedTarget :
    ((108#32).toNat : Int) = ((onLine 4 0 0 []).pc.toNat + 4 * (3#26).toInt) % 2 ^ 32 ∧
    (onLine 4 0 0 []).mapped 108 = true ∧
    ((112#32).toNat : Int) = ((onLine 4 0 0 []).pc.toNat + 4 * (4#26).toInt) % 2 ^ 32 ∧
    (onLine 4 0 0 []).mapped 112 = false ∧
    ((92#32).toNat : Int) = ((onLine 4 0 0 []).pc.toNat + 4 * (0x3FFFFFF#26).toInt) % 2 ^ 32 ∧
    ((0xF8000060#32).toNat : Int) = ((onLine 4 0 0 []).pc.toNat + 4 * (0x2000000#26).toInt) % 2 ^ 32 := by decide

/-- The same for the 19-bit offset of CBZ and CBNZ, with the register zero and not zero. -/
theorem witness_CbzBranchesOnZero_CbnzBranchesOnNonzero :
    ((108#32).toNat : Int) = (sample.pc.toNat + 4 * (3#19).toInt) % 2 ^ 32 ∧ sample.mapped 108 = true ∧
    ((92#32).toNat : Int) = (sample.pc.toNat + 4 * (0x7FFFF#19).toInt) % 2 ^ 32 ∧ sample.mapped 92 = false ∧
    (sample.readReg 0).toNat = 0 ∧ (sample.readReg 3).toNat ≠ 0 := by decide

theorem witness_AndIsBitwise_OrrIsBitwise_EorIsBitwise : 0 < 32 ∧ 31 < 32 := by decide

theorem witness_ShiftFunctionsAreTheirFormulas :
    32 ≤ (32#6).toNat ∧ 32 ≤ (63#6).toNat ∧ 31 ≤ (31#6).toNat := by decide

/-- A present cell and an absent one. -/
theorem witness_LdurLoadsOnlyPresentCells :
    memRead sample.dmem (sample.effAddr 26 4) = some 5#32 ∧
    memPresent sample.dmem (sample.effAddr 0 4) = false := by decide

/-- The address register of the load differs from that of the store, and the stored register is
overwritten between them. -/
theorem witness_LoadAfterStoreGivesStoredValue :
    ∃ t u, exec (.stur 1 0 4 3) sample = .next t ∧ u = (t.writeReg 3 9#32).writeReg 6 8#32 ∧
      u.dmem = t.dmem ∧ u.effAddr (-1) 6 = sample.effAddr 1 4 := ⟨_, _, rfl, rfl, rfl, by decide⟩

/-- A store to 0, far below the base, and to the last address below it; no data; memories that differ at 0
and at 103 alone. -/
theorem witness_StoreBelowDataBaseNeverShows :
    (sample.dataBase = some 104#32 ∧ (sample.effAddr 0 4).toNat < (104#32).toNat ∧
      ((sample.writeReg 4 103#32).effAddr 0 4).toNat = 103) ∧
    State.reset.hasData = false ∧
    (withMem sample [(104, 5#32)]).dmem.wf ∧ (withMem sample [(0, 7#32), (103, 9#32), (104, 5#32)]).dmem.wf ∧
    ∀ a : Word, (104#32).toNat ≤ a.toNat →
      dumpRead [(104, 5#32)] a = dumpRead [(0, 7#32), (103, 9#32), (104, 5#32)] a := by
  refine ⟨by decide, by decide, by decide, by decide, fun a ha => ?_⟩
  have ha : 104 ≤ a.toNat := ha
  simp only [dumpRead, memRead, Memory.lookup]
  rw [if_neg (show a.toNat ≠ 0 by omega), if_neg (show a.toNat ≠ 103 by omega)]

end Sys2Proof.Tests
end

section
/-! The text of a word (00_scope.md R5, 30_encoding.md R50 to R52): when a line is a word, and which
character is which bit. -/

namespace Sys2Proof

/-- R52: a character appended on the right is the new least significant digit. -/
theorem base2_concat (l : Line) (c : Char) : base2 (l ++ [c]) = 2 * base2 l + digitOf c :=
  List.foldl_concat _ _ _ _

theorem digitOf_le_one (c : Char) : digitOf c ≤ 1 := by
  unfold digitOf
  split <;> decide

theorem digitOf_eq_one_iff (c : Char) : digitOf c = 1 ↔ c = '1' := by
  simp [digitOf]

/-- R52: the least significant bit is the last character. True of a string of any length, past whose first
character the bits are 0. -/
theorem testBit_base2_iff (l : Line) (i : Nat) :
    (base2 l).testBit i = true ↔ l.reverse[i]? = some '1' := by
  induction l using List.reverseRecOn generalizing i with
  | nil => simp [base2]
  | append_singleton l c ih =>
    have hc := digitOf_le_one c
    rw [base2_concat, List.reverse_concat]
    cases i with
    | zero =>
      have hlow : (2 * base2 l + digitOf c) % 2 = digitOf c := by omega
      simp [Nat.testBit_zero, hlow, digitOf_eq_one_iff]
    | succ i =>
      have hhigh : (2 * base2 l + digitOf c) / 2 = base2 l := by omega
      rw [Nat.testBit_succ, hhigh, ih, List.getElem?_cons_succ]

/-- R50, R51, with the check's Boolean operations read as propositions. -/
theorem lineOk_iff (l : Line) : lineOk l = true ↔ l.length = 32 ∧ ∀ c ∈ l, c = '0' ∨ c = '1' := by
  simp [lineOk]

theorem wordOfLine_isSome (l : Line) : (wordOfLine l).isSome = lineOk l := by
  unfold wordOfLine
  cases lineOk l <;> rfl

theorem wordOfLine_eq_some_iff (l : Line) (w : Word) :
    wordOfLine l = some w ↔ lineOk l = true ∧ BitVec.ofNat 32 (base2 l) = w := by
  simp [wordOfLine]

theorem length_of_wordOfLine {l : Line} {w : Word} (h : wordOfLine l = some w) : l.length = 32 :=
  ((lineOk_iff l).mp ((wordOfLine_eq_some_iff l w).mp h).1).1

/-- R50: a bit of a line's word is the character as far from the right end. -/
theorem getLsbD_of_wordOfLine {l : Line} {w : Word} (h : wordOfLine l = some w) {i : Nat} (hi : i < 32) :
    w.getLsbD i = true ↔ l.reverse[i]? = some '1' := by
  obtain ⟨-, rfl⟩ := (wordOfLine_eq_some_iff l w).mp h
  rw [BitVec.getLsbD_ofNat, decide_eq_true hi, Bool.true_and, testBit_base2_iff]

/-- Settles O7: the check of `wordOfLine` is R51's, and bit `31 - k`, counted from the right end of 32
characters, is character `k`. -/
theorem lineCharacterIsWordBit : Obligations.LineCharacterIsWordBit := by
  intro l
  constructor
  · rw [wordOfLine_isSome, lineOk_iff]
  · intro w hw k hk
    have hlen := length_of_wordOfLine hw
    have hpos : l.length - 1 - (31 - k) = k := by omega
    rw [getLsbD_of_wordOfLine hw (by omega), List.getElem?_reverse (by omega), hpos]

end Sys2Proof
end

section
/-! Fetch and the lines of the stream (10_state.md R20): which addresses are mapped, and what stands there. -/

namespace Sys2Proof.Machine

/-- Settles O20: an address passes the two checks of `State.fetch` exactly when it is `96 + 4*k`, and the
quotient is then `k`. -/
theorem fetchReadsTheLineAtItsAddress : Obligations.FetchReadsTheLineAtItsAddress := by
  intro s a w
  unfold State.fetch Config.pcBase Config.instrBytes
  constructor
  · intro h
    split at h
    next hline => exact ⟨(a.toNat - 96) / 4, h, by omega⟩
    next => cases h
  · rintro ⟨k, hk, ha⟩
    have hline : 96 ≤ a.toNat ∧ (a.toNat - 96) % 4 = 0 := by omega
    have hindex : (a.toNat - 96) / 4 = k := by omega
    rw [if_pos hline, hindex, hk]

/-- A word can be fetched exactly from the addresses of the `N` lines. -/
theorem State.mapped_iff (s : State) (a : Word) :
    s.mapped a = true ↔ ∃ k, k < s.imem.length ∧ a.toNat = 96 + 4 * k := by
  rw [State.mapped, Option.isSome_iff_exists]
  constructor
  · rintro ⟨w, hw⟩
    obtain ⟨k, hk, ha⟩ := (fetchReadsTheLineAtItsAddress s a w).mp hw
    exact ⟨k, (List.getElem?_eq_some_iff.mp hk).1, ha⟩
  · rintro ⟨k, hk, ha⟩
    exact ⟨s.imem[k], (fetchReadsTheLineAtItsAddress s a _).mpr ⟨k, List.getElem?_eq_getElem hk, ha⟩⟩

theorem State.mapped_of_fetch {s : State} {a w : Word} (h : s.fetch a = some w) : s.mapped a = true := by
  simp [State.mapped, h]

end Sys2Proof.Machine
end

section
/-! What one instruction can change, field by field (40_execution_step.md R83), and the statements about a
single step that follow from it. -/

namespace Sys2Proof.Machine

/-! ### The effect with the operands that the instruction names -/

/-- `Effect` with its operands tied to the instruction: a branch goes by its own offset, the register
written is the one the instruction may write, and only STUR stores. -/
inductive NamedEffect (s : State) : Instr → State → Prop where
  | latch : NamedEffect s .brk s.latchBreak.advance
  | nothing {i : Instr} (h : i ≠ .brk) : NamedEffect s i s.advance
  | branch {i : Instr} (offset : Word) (taken : Bool) (h : branchOffset i = some offset) :
    NamedEffect s i (s.branchTo offset taken)
  | register {i : Instr} (dest : RegIdx) (v : Word) (h : mayWrite i = some dest) :
    NamedEffect s i (s.writeReg dest v).advance
  | memory (imm : BitVec 9) (op2 : BitVec 2) (src1 dest : RegIdx) :
    NamedEffect s (.stur imm op2 src1 dest) (s.store (s.effAddr imm src1) (s.readReg dest)).advance

theorem exec_namedEffect (i : Instr) (s : State) : ∃ t, exec i s = .next t ∧ NamedEffect s i t := by
  cases i with
  | brk => exact ⟨_, rfl, .latch⟩
  | nop | movz _ _ _ | movk _ _ _ | unknown _ => exact ⟨_, rfl, .nothing (by simp)⟩
  | b _ | cbz _ _ | cbnz _ _ => exact ⟨_, rfl, .branch _ _ rfl⟩
  | addi _ _ _ | subi _ _ _ | add _ _ _ _ | sub _ _ _ _ | and _ _ _ _ | orr _ _ _ _ | eor _ _ _ _
  | eor2 _ _ _ _ | lsl _ _ _ _ | lsr _ _ _ _ | asr _ _ _ _ => exact ⟨_, rfl, .register _ _ rfl⟩
  | stur imm op2 src1 dest => exact ⟨_, rfl, .memory imm op2 src1 dest⟩
  | ldur imm op2 src1 dest =>
    simp only [exec, execLdur]
    split
    · exact ⟨_, rfl, .register _ _ rfl⟩
    · exact ⟨_, rfl, .nothing (by simp)⟩

theorem namedEffect_of_exec {i : Instr} {s t : State} (h : exec i s = .next t) : NamedEffect s i t := by
  obtain ⟨t', ht', e⟩ := exec_namedEffect i s
  cases Host.Outcome.next.inj (ht'.symm.trans h)
  exact e

/-! ### Registers and memory -/

/-- 10_state.md R12. -/
theorem exec_readReg {i : Instr} {s t : State} (h : exec i s = .next t) {r : RegIdx}
    (hr : mayWrite i ≠ some r) : t.readReg r = s.readReg r := by
  cases namedEffect_of_exec h with
  | latch | nothing _ | branch _ _ _ | memory _ _ _ _ => simp
  | register dest v hdest =>
    have hne : r ≠ dest := fun e => hr (e ▸ hdest)
    rw [State.advance_readReg, State.readReg_writeReg_ne s v hne]

/-- Settles O32. -/
theorem atMostOneRegisterWritten : Obligations.AtMostOneRegisterWritten :=
  fun _ _ _ h _ hchanged => not_imp_comm.mp (exec_readReg h) hchanged

/-- 20_memory.md R32: the data memory is as it was, or STUR has written one address of it. -/
theorem exec_dmem_cases {i : Instr} {s t : State} (h : exec i s = .next t) :
    t.dmem = s.dmem ∨ i.mnemonic = .stur ∧ ∃ a v, t.dmem = memWrite s.dmem a v := by
  cases namedEffect_of_exec h with
  | latch | nothing _ | branch _ _ _ | register _ _ _ => exact .inl (by simp)
  | memory _ _ _ _ => exact .inr ⟨rfl, _, _, rfl⟩

/-- 20_memory.md R30: a write takes no address away. -/
theorem memPresent_memWrite {m : Memory} {b : Word} (h : memPresent m b = true) (a v : Word) :
    memPresent (memWrite m a v) b = true := by
  by_cases hba : b = a
  · simp [memPresent, hba]
  · rwa [memPresent, memRead_memWrite_ne m v hba]

theorem exec_memPresent {i : Instr} {s t : State} (h : exec i s = .next t) {a : Word}
    (ha : memPresent s.dmem a = true) : memPresent t.dmem a = true := by
  obtain hkept | ⟨-, b, v, hwritten⟩ := exec_dmem_cases h
  · rwa [hkept]
  · rw [hwritten]; exact memPresent_memWrite ha b v

theorem exec_dmem_wf {i : Instr} {s t : State} (h : exec i s = .next t) (hwf : s.dmem.wf) : t.dmem.wf := by
  obtain hkept | ⟨-, b, v, hwritten⟩ := exec_dmem_cases h
  · rwa [hkept]
  · rw [hwritten]; exact memWrite_wf hwf b v

/-- Settles O33. -/
theorem onlySturWritesMemory : Obligations.OnlySturWritesMemory := fun _ _ _ h =>
  ⟨fun hne => (exec_dmem_cases h).resolve_right fun hstur => hne hstur.1, fun _ => exec_memPresent h⟩

/-! ### The pc, the halt latch and the rest -/

/-- 10_state.md R14. -/
theorem exec_pc_cases {i : Instr} {s t : State} (h : exec i s = .next t) :
    t.pc = s.pc + 4#32 ∨ ∃ offset, branchOffset i = some offset ∧
      s.mapped (s.pc + 4#32 * offset) = true ∧ t.pc = s.pc + 4#32 * offset := by
  cases namedEffect_of_exec h with
  | latch | nothing _ | register _ _ _ | memory _ _ _ _ => exact .inl rfl
  | branch offset taken hoffset =>
    obtain ⟨-, hmapped, hto⟩ | ⟨-, hto⟩ := s.branchTo_cases offset taken
    · exact .inr ⟨offset, hoffset, hmapped, by rw [hto]⟩
    · exact .inl (by rw [hto, State.advance_pc])

/-- 10_state.md R17. -/
theorem exec_runState {i : Instr} {s t : State} (h : exec i s = .next t) :
    t.runState = if i = .brk then s.runState.afterBreak else s.runState := by
  cases effect_of_exec h with
  | latch => simp
  | nothing hne | branch hne _ _ | register hne _ _ | memory hne _ _ => simp [hne]

theorem exec_restKept {i : Instr} {s t : State} (h : exec i s = .next t) : RestKept s t := by
  cases effect_of_exec h with
  | latch | nothing _ | branch _ _ _ | register _ _ _ | memory _ _ _ => simp [RestKept]

/-! ### The same for a step whose word is known -/

/-- A step with a next state from a line that holds `w` has executed `decode w` and retired it. -/
theorem step_next_of_fetch {s t : State} {w : Word} (h : step s = .next t) (hw : s.fetch s.pc = some w) :
    ∃ u, exec (decode w) s = .next u ∧ t = retire (decode w) s u := by
  obtain ⟨w', u, -, hw', -, hu, -, ht⟩ := step_next_cases h
  cases Option.some.inj (hw.symm.trans hw')
  exact ⟨u, hu, ht⟩

/-- Settles O37. -/
theorem nextPcIsSequentialOrMappedTarget : Obligations.NextPcIsSequentialOrMappedTarget := by
  intro s t w h hw
  obtain ⟨u, hu, rfl⟩ := step_next_of_fetch h hw
  rw [retire_pc]
  exact exec_pc_cases hu

/-- 30_encoding.md R65: every row after the first decodes to another instruction. -/
theorem decode_eq_brk_iff (w : Word) : decode w = .brk ↔ w = Config.breakWord := by
  by_cases hw : w = Config.breakWord
  · exact iff_of_true (if_pos hw) hw
  · have hother : decode w ≠ .brk := by
      unfold decode
      rw [if_neg hw]
      simp only [ne_eq, ite_eq_iff, reduceCtorEq, and_false, or_self, not_false_eq_true]
    exact iff_of_false hother hw

/-- Settles O38: the latch moves exactly by `RunState.afterBreak`, and only for BREAK's own word. -/
theorem onlyBreakMovesTheLatch : Obligations.OnlyBreakMovesTheLatch := by
  intro s t w h hw
  obtain ⟨u, hu, rfl⟩ := step_next_of_fetch h hw
  rw [retire_runState, exec_runState hu, if_congr (decode_eq_brk_iff w) rfl rfl]
  refine ⟨fun hne => if_neg hne, fun heq hrun => ?_, fun heq hrun => ?_⟩
  · rw [if_pos heq, hrun]; rfl
  · rw [if_pos heq, hrun]; rfl

/-! ### Registers along a run -/

/-- A part of the state that no step of a run changes is at the end what it was at the start. -/
theorem run_keeps_value {α : Type} (part : State → α) {k : Nat} {s t : State} (h : core.run k s = .next t)
    (keep : ∀ j u v, j < k → core.run j s = .next u → step u = .next v → part v = part u) :
    part t = part s := by
  induction k generalizing s with
  | zero => cases Host.Outcome.next.inj h; rfl
  | succ k ih =>
    obtain ⟨u, hu, hrun⟩ := run_succ_next_cases h
    have hfirst : part u = part s := keep 0 s u k.succ_pos (run_zero s) hu
    have hrest : part t = part u := ih hrun fun j x y hj hx hy =>
      keep (j + 1) x y (Nat.succ_lt_succ hj) ((run_succ_of_next hu).trans hx) hy
    exact hrest.trans hfirst

/-- Settles O31: the persistence by induction over the run, a step changing only what its instruction may
write. -/
theorem noRegisterIsHardWired : Obligations.NoRegisterIsHardWired := by
  refine ⟨fun s r v => ⟨s.readReg_writeReg_same r v, fun q hq => s.readReg_writeReg_ne v hq⟩, ?_,
    fun stream => State.load_readReg stream 0⟩
  intro r k s t h hnone
  refine run_keeps_value (fun x => x.readReg r) h fun j u v hj hu hstep => ?_
  obtain ⟨w, x, -, hw, -, hx, -, rfl⟩ := step_next_cases hstep
  exact exec_readReg hx (hnone j u w hj hu hw)

end Sys2Proof.Machine
end

section
/-! The invariant of a run, kept by every step. -/

namespace Sys2Proof.Machine

/-! ### The pc stays on a line -/

/-- The pc after a line is on the next line, or one past the last: a stream that fits has no wrap here. -/
theorem toNat_add_four_of_line {a : Word} {k n : Nat} (ha : a.toNat = 96 + 4 * k) (hk : k < n)
    (hn : 96 + 4 * n < 2 ^ 32) : (a + 4#32).toNat = 96 + 4 * (k + 1) := by
  rw [BitVec.toNat_add, BitVec.toNat_ofNat, ha]
  omega

/-- 10_state.md R15: from a line, every instruction goes to a line or one past the last. -/
theorem exec_pcOnLine {i : Instr} {s t : State} (h : exec i s = .next t) (hpc : s.mapped s.pc = true)
    (hfits : 96 + 4 * s.imem.length < 2 ^ 32) : ∃ k, k ≤ s.imem.length ∧ t.pc.toNat = 96 + 4 * k := by
  obtain hnext | ⟨offset, -, htarget, hto⟩ := exec_pc_cases h
  · obtain ⟨k, hk, ha⟩ := (s.mapped_iff s.pc).mp hpc
    exact ⟨k + 1, hk, by rw [hnext, toNat_add_four_of_line ha hk hfits]⟩
  · obtain ⟨k, hk, ha⟩ := (s.mapped_iff _).mp htarget
    exact ⟨k, hk.le, by rw [hto, ha]⟩

/-! ### The latch counts the BREAK records -/

theorem latchAfter_succ (n : Nat) : latchAfter (n + 1) = (latchAfter n).afterBreak :=
  match n with
  | 0 | 1 | _ + 2 => rfl

theorem disasm_mnemonic (i : Instr) (pc : Word) : (disasm i pc).mnemonic = i.mnemonic := by
  cases i <;> rfl

theorem mnemonic_eq_brk_iff (i : Instr) : i.mnemonic = .brk ↔ i = .brk := by
  cases i <;> simp [Instr.mnemonic]

theorem breaksIn_snapshot_cons (i : Instr) (s t : State) (rs : List Record) :
    breaksIn (snapshot i s t :: rs) = if i = .brk then breaksIn rs + 1 else breaksIn rs := by
  have hline : (snapshot i s t).line.mnemonic = .brk ↔ i = .brk :=
    (disasm_mnemonic i s.pc).symm ▸ mnemonic_eq_brk_iff i
  rw [breaksIn, if_congr hline rfl rfl]
  split <;> omega

/-- 10_state.md R17: the latch that an instruction leaves is that of the records with its own added. -/
theorem exec_latchCounts {i : Instr} {s t : State} (h : exec i s = .next t)
    (hlatch : s.runState = latchAfter (breaksIn s.trace)) :
    t.runState = latchAfter (breaksIn (snapshot i s t :: s.trace)) := by
  rw [exec_runState h, breaksIn_snapshot_cons, hlatch]
  split
  · rw [latchAfter_succ]
  · rfl

/-! ### The step -/

/-- Settles O18: each field of the invariant by what its part of the state can become. -/
theorem stepKeepsInvariant : Obligations.StepKeepsInvariant := by
  intro s t hinv hstep
  obtain ⟨w, u, -, hfetch, -, hexec, -, rfl⟩ := step_next_cases hstep
  obtain ⟨himem, hbase, hdata, hcycle, -, htrace⟩ := exec_restKept hexec
  have hpc := exec_pcOnLine hexec (State.mapped_of_fetch hfetch) hinv.streamFits
  have hlatch := exec_latchCounts hexec hinv.latchCounts
  exact
    { streamFits := by simpa [himem] using hinv.streamFits
      pcOnLine := by simpa [himem] using hpc
      memWf := (exec_dmem_wf hexec hinv.memWf : u.dmem.wf)
      cycleCounts := by simp [hcycle, htrace, hinv.cycleCounts]
      latchCounts := by simpa [htrace] using hlatch
      dataBaseLoaded := by simpa [himem, hbase] using hinv.dataBaseLoaded
      hasDataLoaded := by simpa [himem, hdata] using hinv.hasDataLoaded
      loadedPresent := fun a ha => exec_memPresent hexec (hinv.loadedPresent a (by simpa [himem] using ha)) }

end Sys2Proof.Machine
end

section
/-! Two states that a program cannot tell apart: what it reads is the same in both, what it does keeps them
alike, and so they run alike. -/

namespace Sys2Proof.Machine

section
variable {s s' : State} (h : SameToPrograms s s')
include h

/-! ### What an instruction reads -/

theorem SameToPrograms.readReg (r : RegIdx) : s.readReg r = s'.readReg r := by
  obtain ⟨hregs, -⟩ := h
  exact State.readReg_congr hregs r

theorem SameToPrograms.effAddr (imm : BitVec 9) (src1 : RegIdx) : s.effAddr imm src1 = s'.effAddr imm src1 := by
  rw [State.effAddr, State.effAddr, h.readReg]

theorem SameToPrograms.regIsZero (cond : RegIdx) : s.regIsZero cond = s'.regIsZero cond := by
  rw [State.regIsZero, State.regIsZero, h.readReg]

theorem SameToPrograms.fetch_pc : s.fetch s.pc = s'.fetch s'.pc := by
  obtain ⟨-, hpc, -, -, himem, -⟩ := h
  rw [hpc, State.fetch_congr himem]

/-! ### What an instruction does -/

theorem SameToPrograms.advance : SameToPrograms s.advance s'.advance := by
  obtain ⟨hregs, hpc, hrun, hmem, himem, hdog⟩ := h
  exact ⟨hregs, congrArg (· + 4#32) hpc, hrun, hmem, himem, hdog⟩

theorem SameToPrograms.latchBreak : SameToPrograms s.latchBreak s'.latchBreak := by
  obtain ⟨hregs, hpc, hrun, hmem, himem, hdog⟩ := h
  exact ⟨hregs, hpc, congrArg RunState.afterBreak hrun, hmem, himem, hdog⟩

theorem SameToPrograms.writeReg (dest : RegIdx) {v v' : Word} (hv : v = v') :
    SameToPrograms (s.writeReg dest v) (s'.writeReg dest v') := by
  obtain ⟨hregs, hpc, hrun, hmem, himem, hdog⟩ := h
  exact ⟨by simp [hregs, hv], hpc, hrun, hmem, himem, hdog⟩

theorem SameToPrograms.store {a a' v v' : Word} (ha : a = a') (hv : v = v') :
    SameToPrograms (s.store a v) (s'.store a' v') := by
  obtain ⟨hregs, hpc, hrun, hmem, himem, hdog⟩ := h
  exact ⟨hregs, hpc, hrun, by simp [hmem, ha, hv], himem, hdog⟩

theorem SameToPrograms.branchTo (offset : Word) {taken taken' : Bool} (ht : taken = taken') :
    SameToPrograms (s.branchTo offset taken) (s'.branchTo offset taken') := by
  obtain ⟨hregs, hpc, hrun, hmem, himem, hdog⟩ := h
  have hto : (s.branchTo offset taken).pc = (s'.branchTo offset taken').pc := by
    rw [State.branchTo_pc, State.branchTo_pc, State.mapped_congr himem, hpc, ht]
  exact ⟨by simp [hregs], hto, by simp [hrun], by simp [hmem], by simp [himem], by simp [hdog]⟩

theorem SameToPrograms.immediateOp (op : Word → Word → Word) (imm : BitVec 12) (src1 dest : RegIdx) :
    SameToPrograms (s.immediateOp op imm src1 dest) (s'.immediateOp op imm src1 dest) :=
  (h.writeReg dest (by rw [h.readReg])).advance

theorem SameToPrograms.registerOp (op : Word → Word → Word) (src1 src2 dest : RegIdx) :
    SameToPrograms (s.registerOp op src1 src2 dest) (s'.registerOp op src1 src2 dest) :=
  (h.writeReg dest (by rw [h.readReg, h.readReg])).advance

theorem SameToPrograms.shiftOp (op : Word → BitVec 6 → Word) (shamt : BitVec 6) (src2 dest : RegIdx) :
    SameToPrograms (s.shiftOp op shamt src2 dest) (s'.shiftOp op shamt src2 dest) :=
  (h.writeReg dest (by rw [h.readReg])).advance

/-- The counter, the watchdog's countdown and the record that end a step tell a program nothing new. -/
theorem SameToPrograms.retire {i i' : Instr} {issued issued' : State} :
    SameToPrograms (retire i issued s) (retire i' issued' s') := by
  obtain ⟨hregs, hpc, hrun, hmem, himem, hdog⟩ := h
  exact ⟨hregs, hpc, hrun, hmem, himem, by simp [hdog]⟩

/-! ### One instruction -/

theorem SameToPrograms.exec_next (i : Instr) :
    ∃ t t', exec i s = .next t ∧ exec i s' = .next t' ∧ SameToPrograms t t' := by
  cases i with
  | brk => exact ⟨_, _, rfl, rfl, h.latchBreak.advance⟩
  | nop | movz _ _ _ | movk _ _ _ | unknown _ => exact ⟨_, _, rfl, rfl, h.advance⟩
  | b _ => exact ⟨_, _, rfl, rfl, h.branchTo _ rfl⟩
  | cbz _ cond => exact ⟨_, _, rfl, rfl, h.branchTo _ (h.regIsZero cond)⟩
  | cbnz _ cond => exact ⟨_, _, rfl, rfl, h.branchTo _ (congrArg not (h.regIsZero cond))⟩
  | addi _ _ _ | subi _ _ _ => exact ⟨_, _, rfl, rfl, h.immediateOp _ _ _ _⟩
  | add _ _ _ _ | sub _ _ _ _ | and _ _ _ _ | orr _ _ _ _ | eor _ _ _ _ | eor2 _ _ _ _ =>
    exact ⟨_, _, rfl, rfl, h.registerOp _ _ _ _⟩
  | lsl _ _ _ _ | lsr _ _ _ _ | asr _ _ _ _ => exact ⟨_, _, rfl, rfl, h.shiftOp _ _ _ _⟩
  | stur imm _ src1 dest => exact ⟨_, _, rfl, rfl, (h.store (h.effAddr imm src1) (h.readReg dest)).advance⟩
  | ldur imm _ src1 dest =>
    have ⟨_, _, _, hmem, _, _⟩ := h
    have hread : memRead s.dmem (s.effAddr imm src1) = memRead s'.dmem (s'.effAddr imm src1) := by
      rw [hmem, h.effAddr]
    simp only [exec, execLdur, hread]
    split
    · exact ⟨_, _, rfl, rfl, (h.writeReg dest rfl).advance⟩
    · exact ⟨_, _, rfl, rfl, h.advance⟩

end

/-! ### One step, and a run of steps -/

/-- Outcomes that a program cannot tell apart. Refusals are left out: no step answers one. -/
inductive OutcomesAgree : Host.Outcome State Fault Refusal → Host.Outcome State Fault Refusal → Prop where
  | next {t t' : State} (h : SameToPrograms t t') : OutcomesAgree (.next t) (.next t')
  | fault (f : Fault) : OutcomesAgree (.fault f) (.fault f)

theorem step_of_halted {s : State} (hr : s.runState = .halted) : step s = .fault .runHalted := by
  simp [step, hr]

theorem step_of_unmapped {s : State} (hr : s.runState ≠ .halted) (hf : s.fetch s.pc = none) :
    step s = .fault .streamExhausted := by
  cases hs : s.runState with
  | halted => exact absurd hs hr
  | running | haltArmed => simp [step, hs, hf]

theorem step_of_spent {s : State} {w : Word} (hr : s.runState ≠ .halted) (hf : s.fetch s.pc = some w)
    (hw : s.watchdog = some 0) : step s = .fault .runawayExecution := by
  cases hs : s.runState with
  | halted => exact absurd hs hr
  | running | haltArmed => simp [step, hs, hf, hw]

/-- The three questions a step asks (40_execution_step.md R81, R89) have the same answers in both states. -/
theorem step_agree {s s' : State} (h : SameToPrograms s s') : OutcomesAgree (step s) (step s') := by
  have hfetch := h.fetch_pc
  have ⟨_, _, hrun, _, _, hdog⟩ := h
  by_cases hr : s.runState = .halted
  · rw [step_of_halted hr, step_of_halted (hrun ▸ hr)]
    exact .fault _
  have hr' : s'.runState ≠ .halted := hrun ▸ hr
  cases hf : s.fetch s.pc with
  | none =>
    rw [step_of_unmapped hr hf, step_of_unmapped hr' (hfetch ▸ hf)]
    exact .fault _
  | some w =>
    by_cases hw : s.watchdog = some 0
    · rw [step_of_spent hr hf hw, step_of_spent hr' (hfetch ▸ hf) (hdog ▸ hw)]
      exact .fault _
    · obtain ⟨t, ht, hstep⟩ := step_of_fetch hr hf hw
      obtain ⟨t', ht', hstep'⟩ := step_of_fetch hr' (hfetch ▸ hf) (hdog ▸ hw)
      obtain ⟨u, u', hu, hu', hsame⟩ := h.exec_next (decode w)
      cases Host.Outcome.next.inj (hu.symm.trans ht)
      cases Host.Outcome.next.inj (hu'.symm.trans ht')
      rw [hstep, hstep']
      exact .next hsame.retire

theorem run_agree (k : Nat) {s s' : State} (h : SameToPrograms s s') :
    OutcomesAgree (core.run k s) (core.run k s') := by
  induction k generalizing s s' with
  | zero => exact .next h
  | succ k ih =>
    have hagree := step_agree h
    generalize hs : step s = o, hs' : step s' = o' at hagree
    cases hagree with
    | next hnext =>
      rw [run_succ_of_next hs, run_succ_of_next hs']
      exact ih hnext
    | fault f =>
      rw [run_succ_of_fault hs, run_succ_of_fault hs']
      exact .fault f

/-- Settles O27, by induction on the number of steps, in `run_agree`. -/
theorem runsIgnoreCounterAndDataBase : Obligations.RunsIgnoreCounterAndDataBase := by
  intro k s s' h
  have hagree := run_agree k h
  constructor
  · intro t ht
    rw [ht] at hagree
    generalize core.run k s' = o' at hagree
    cases hagree with
    | next hsame => exact ⟨_, rfl, hsame⟩
  · intro f hf
    rw [hf] at hagree
    generalize core.run k s' = o' at hagree
    cases hagree with
    | fault => rfl

end Sys2Proof.Machine
end

section
/-! The data memory (20_memory.md): cells, the one port request of an instruction, cells and instruction
fetch along a run, and what a dump shows. -/

namespace Sys2Proof.Machine

/-! ### Cells (R30, R35) -/

theorem memPresent_eq_true_iff (m : Memory) (a : Word) : memPresent m a = true ↔ ∃ v, memRead m a = some v :=
  Option.isSome_iff_exists

theorem memPresent_eq_false_iff (m : Memory) (a : Word) : memPresent m a = false ↔ memRead m a = none :=
  Option.isSome_eq_false_iff.trans Option.isNone_iff_eq_none

theorem dumpRead_of_memRead_none {m : Memory} {a : Word} (h : memRead m a = none) : dumpRead m a = 0#32 := by
  rw [dumpRead, h, Option.getD_none]

theorem dumpRead_of_memRead_some {m : Memory} {a v : Word} (h : memRead m a = some v) : dumpRead m a = v := by
  rw [dumpRead, h, Option.getD_some]

/-- Settles O40. -/
theorem memoryReadsWhatWasWritten : Obligations.MemoryReadsWhatWasWritten := by
  intro m a v
  have hread : memRead (memWrite m a v) a = some v := memRead_memWrite_same m a v
  exact ⟨(memPresent_eq_true_iff _ a).mpr ⟨v, hread⟩, hread, fun b hb => memRead_memWrite_ne m v hb,
    fun hwf => memWrite_wf hwf a v,
    fun habsent => dumpRead_of_memRead_none ((memPresent_eq_false_iff m a).mp habsent),
    fun u => dumpRead_of_memRead_some⟩

/-- Settles O41: the sum modulo 2^32 of an address and 1, 2 or 3 is another address, so another key. -/
theorem misalignedCellsDoNotOverlap : Obligations.MisalignedCellsDoNotOverlap := by
  intro m a v d hpos hlt
  have hne : a + BitVec.ofNat 32 d ≠ a := by bv_omega
  exact memRead_memWrite_ne m v hne

/-! ### The port request of an instruction (R31, R32) -/

theorem exec_stur (imm : BitVec 9) (op2 : BitVec 2) (src1 dest : RegIdx) (s : State) :
    exec (.stur imm op2 src1 dest) s = .next (s.store (s.effAddr imm src1) (s.readReg dest)).advance := rfl

theorem exec_ldur_of_present {s : State} {imm : BitVec 9} {src1 : RegIdx} {v : Word}
    (h : memRead s.dmem (s.effAddr imm src1) = some v) (op2 : BitVec 2) (dest : RegIdx) :
    exec (.ldur imm op2 src1 dest) s = .next (s.writeReg dest v).advance := by
  simp only [exec, execLdur, h]

theorem exec_ldur_of_absent {s : State} {imm : BitVec 9} {src1 : RegIdx}
    (h : memRead s.dmem (s.effAddr imm src1) = none) (op2 : BitVec 2) (dest : RegIdx) :
    exec (.ldur imm op2 src1 dest) s = .next s.advance := by
  simp only [exec, execLdur, h]

/-- Every request is the write of a STUR or the read of an LDUR. -/
theorem memRequest_cases {i : Instr} {s : State} {q : MemRequest} (h : memRequest i s = some q) :
    (∃ imm op2 src1 dest, i = .stur imm op2 src1 dest ∧ q = ⟨s.effAddr imm src1, true, s.readReg dest⟩) ∨
    ∃ imm op2 src1 dest, i = .ldur imm op2 src1 dest ∧ q = ⟨s.effAddr imm src1, false, 0#32⟩ := by
  cases i with
  | stur imm op2 src1 dest => exact .inl ⟨imm, op2, src1, dest, rfl, (Option.some.inj h).symm⟩
  | ldur imm op2 src1 dest => exact .inr ⟨imm, op2, src1, dest, rfl, (Option.some.inj h).symm⟩
  | _ => cases h

theorem mnemonic_ne_stur_of_memRequest_none {i : Instr} {s : State} (h : memRequest i s = none) :
    i.mnemonic ≠ .stur := by
  cases i with
  | stur _ _ _ _ => cases h
  | _ => simp [Instr.mnemonic]

/-- Settles O34: an instruction with a request is STUR, or LDUR at a present or an absent address. -/
theorem memoryChangesByPortRequest : Obligations.MemoryChangesByPortRequest := by
  intro i s t h
  have hkept : i.mnemonic ≠ .stur → t.dmem = s.dmem := (onlySturWritesMemory i s t h).1
  refine ⟨fun hnone => hkept (mnemonic_ne_stur_of_memRequest_none hnone), fun q hq => ?_⟩
  obtain ⟨imm, op2, src1, dest, rfl, rfl⟩ | ⟨imm, op2, src1, dest, rfl, rfl⟩ := memRequest_cases hq
  · cases Host.Outcome.next.inj ((exec_stur imm op2 src1 dest s).symm.trans h)
    exact ⟨fun _ => ⟨rfl, fun _ => rfl⟩, nofun⟩
  · refine ⟨nofun, fun _ => ⟨hkept (by simp [Instr.mnemonic]), fun habsent => ?_, fun hpresent => ?_⟩⟩
    · have hload := exec_ldur_of_absent ((memPresent_eq_false_iff _ _).mp habsent) op2 dest
      cases Host.Outcome.next.inj (hload.symm.trans h)
      exact s.advance_readReg
    · obtain ⟨v, hv⟩ := (memPresent_eq_true_iff _ _).mp hpresent
      cases Host.Outcome.next.inj ((exec_ldur_of_present hv op2 dest).symm.trans h)
      refine ⟨dest, rfl, ?_⟩
      rw [hv, State.advance_readReg, State.readReg_writeReg_same]

/-! ### Cells and instruction fetch along a run (R38, R40) -/

/-- An instruction that makes no write request for an address leaves it as it was. -/
theorem exec_memRead {i : Instr} {s t : State} (h : exec i s = .next t) {a : Word}
    (ha : ∀ q, memRequest i s = some q → q.we = true → q.addr ≠ a) :
    memRead t.dmem a = memRead s.dmem a := by
  obtain ⟨hnone, hrequest⟩ := memoryChangesByPortRequest i s t h
  cases hq : memRequest i s with
  | none => rw [hnone hq]
  | some q =>
    obtain ⟨hwrite, hread⟩ := hrequest q hq
    cases hwe : q.we with
    | true => rw [(hwrite hwe).1, memRead_memWrite_ne s.dmem q.wdata (ha q hq hwe).symm]
    | false => rw [(hread hwe).1]

theorem step_memRead {s t : State} (h : step s = .next t) {a : Word} (ha : ¬ storesTo s a) :
    memRead t.dmem a = memRead s.dmem a := by
  obtain ⟨w, u, -, hw, -, hu, -, rfl⟩ := step_next_cases h
  rw [retire_dmem]
  exact exec_memRead hu fun q hq hwe haddr => ha ⟨w, q, hw, hq, hwe, haddr⟩

/-- Settles O35, by the induction over a run of `run_keeps_value`. -/
theorem cellKeepsValueUntilStoredTo : Obligations.CellKeepsValueUntilStoredTo := by
  intro a k s t h hnone
  exact run_keeps_value (fun x => memRead x.dmem a) h fun j u v hj hu hstep => step_memRead hstep (hnone j u hj hu)

/-- 10_state.md R20: the instruction stream is fixed for the whole run. -/
theorem step_imem {s t : State} (h : step s = .next t) : t.imem = s.imem := by
  obtain ⟨w, u, -, -, -, hu, -, rfl⟩ := step_next_cases h
  obtain ⟨himem, -⟩ := exec_restKept hu
  rw [retire_imem, himem]

/-- Settles O36: fetch reads the stream alone, and no step changes the stream. -/
theorem storesNeverReachInstructions : Obligations.StoresNeverReachInstructions := by
  refine ⟨fun s a v b => State.fetch_congr (s.store_imem a v) b, fun k s t h => ?_⟩
  have himem : t.imem = s.imem := run_keeps_value State.imem h fun _ _ _ _ _ hstep => step_imem hstep
  exact ⟨himem, State.fetch_congr himem⟩

/-! ### What a dump shows (40_execution_step.md R85) -/

/-- A dump shows a cell by its DumpRead alone: an absent address, read as 0, is not shown either. -/
theorem memRead_filter_shownBy {m : Memory} (hm : m.wf) (base a : Word) :
    memRead (m.filter (shownBy base)) a = (some (dumpRead m a)).filter fun v => shownBy base (a.toNat, v) := by
  have hfilter : memRead (m.filter (shownBy base)) a = (memRead m a).filter fun v => shownBy base (a.toNat, v) :=
    Memory.lookup_filter hm (shownBy base) a.toNat
  rw [hfilter]
  cases hread : memRead m a with
  | none => simp [dumpRead_of_memRead_none hread, shownBy, Option.filter]
  | some v => rw [dumpRead_of_memRead_some hread]

/-- Canonical memories with equal DumpReads show the same cells. -/
theorem filter_shownBy_congr {m n : Memory} (hm : m.wf) (hn : n.wf)
    (h : ∀ a : Word, dumpRead m a = dumpRead n a) (base : Word) :
    m.filter (shownBy base) = n.filter (shownBy base) :=
  Memory.eq_of_read_eq (Memory.filter_wf hm _) (Memory.filter_wf hn _) fun a => by
    rw [memRead_filter_shownBy hm, memRead_filter_shownBy hn, h a]

/-- Settles O25. -/
theorem dumpHidesPresence : Obligations.DumpHidesPresence := by
  intro s t hs ht hdata hbase hread
  simp only [State.dump, hdata, hbase, filter_shownBy_congr hs ht hread]

end Sys2Proof.Machine
end

section
/-! The decoder, the encoder and the opcode map (30_encoding.md R55 to R68): decoding and encoding are
inverse, the decoder's tests are the rows' tests, and no word is selected by two rows. -/

namespace Sys2Proof

open Laws

/-! ### The word of a decoded instruction -/

section
variable {w : Word} {d6 : BitVec 6} {d8 : BitVec 8} {d9 : BitVec 9} {d10 : BitVec 10} {d11 : BitVec 11}

theorem wordB_of_top (h : top w 6 = d6) : wordB d6 (offsetB w) = w := h ▸ wordB_of_fields w

theorem wordCB_of_top (h : top w 8 = d8) : wordCB d8 (offsetCB w) (regAt0 w) = w := h ▸ wordCB_of_fields w

theorem wordIM_of_top (h : top w 9 = d9) : wordIM d9 (scIM w) (fieldIM w) (regAt0 w) = w :=
  h ▸ wordIM_of_fields w

theorem wordI_of_top (h : top w 10 = d10) : wordI d10 (immI w) (regAt5 w) (regAt0 w) = w :=
  h ▸ wordI_of_fields w

theorem wordD_of_top (h : top w 11 = d11) : wordD d11 (immD w) (op2D w) (regAt5 w) (regAt0 w) = w :=
  h ▸ wordD_of_fields w

theorem wordR_of_top (h : top w 11 = d11) : wordR d11 (src1R w) (shamtR w) (regAt5 w) (regAt0 w) = w :=
  h ▸ wordR_of_fields w

end

/-- One test of the decoder keeps the word when both its answers do. -/
theorem encode_ite {c : Prop} [Decidable c] {i j : Instr} {w : Word} (hi : c → encode i = w)
    (hj : encode j = w) : encode (if c then i else j) = w := by
  split
  · exact hi ‹c›
  · exact hj

/-- R61: no bit of a word is lost, test by test in the order of the decoder. -/
theorem encode_decode (w : Word) : encode (decode w) = w :=
  encode_ite Eq.symm <| encode_ite Eq.symm <|
  encode_ite wordB_of_top <|
  encode_ite wordCB_of_top <| encode_ite wordCB_of_top <|
  encode_ite wordIM_of_top <| encode_ite wordIM_of_top <|
  encode_ite wordI_of_top <| encode_ite wordI_of_top <|
  encode_ite wordD_of_top <| encode_ite wordD_of_top <|
  encode_ite wordR_of_top <| encode_ite wordR_of_top <| encode_ite wordR_of_top <|
  encode_ite wordR_of_top <| encode_ite wordR_of_top <| encode_ite wordR_of_top <|
  encode_ite wordR_of_top <| encode_ite wordR_of_top <| encode_ite wordR_of_top rfl

/-! ### The decoder's default is that of the opcode map -/

theorem and_full_mask (w : Word) : w &&& 0xFFFFFFFF#32 = w := BitVec.and_allOnes

/-- R67: each test of the decoder, on the first bits of the word, is the test of a row, by its mask. -/
theorem decode_eq_unknown_iff (w v : Word) :
    decode w = .unknown v ↔ (∀ r ∈ opcodeTable, r.selects w = false) ∧ w = v := by
  simp [decode, ite_eq_iff, and_assoc, opcodeTable, OpcodeRow.selects, Config.breakWord, and_full_mask,
    ← and_mask6_eq, ← and_mask8_eq, ← and_mask9_eq, ← and_mask10_eq, ← and_mask11_eq]

theorem wellFormed_unknown_iff (w : Word) :
    (Instr.unknown w).wellFormed = true ↔ ∀ r ∈ opcodeTable, r.selects w = false := by
  simp [Instr.wellFormed]

theorem wellFormed_decode (w : Word) : (decode w).wellFormed = true := by
  cases h : decode w with
  | unknown v =>
    obtain ⟨hnone, rfl⟩ := (decode_eq_unknown_iff w v).mp h
    exact (wellFormed_unknown_iff w).mpr hnone
  | _ => rfl

/-! ### Decoding an encoded instruction -/

/-- R65: a word whose first bits are not BREAK's is not BREAK, and likewise for NOP. -/
theorem ne_breakWord_of_top {w : Word} (h : top w 6 ≠ 0b111111#6) : w ≠ Config.breakWord := by
  rintro rfl
  exact h (by decide)

theorem ne_zero_of_top {w : Word} (h : top w 6 ≠ 0b000000#6) : w ≠ 0#32 := by
  rintro rfl
  exact h (by decide)

/-- Settles O2: the discriminator of each row passes its own test and none of those before it, and the
fields are then read where they were put. -/
theorem decodeOfEncodeGivesInstruction : Obligations.DecodeOfEncodeGivesInstruction := by
  intro i hwf
  cases i with
  | brk | nop => rfl
  | b _ => simp [encode, decode, ne_breakWord_of_top, ne_zero_of_top, top_wordB]
  | cbz _ _ | cbnz _ _ => simp [encode, decode, ne_breakWord_of_top, ne_zero_of_top, top_wordCB]
  | movz _ _ _ | movk _ _ _ => simp [encode, decode, ne_breakWord_of_top, ne_zero_of_top, top_wordIM]
  | addi _ _ _ | subi _ _ _ => simp [encode, decode, ne_breakWord_of_top, ne_zero_of_top, top_wordI]
  | stur _ _ _ _ | ldur _ _ _ _ => simp [encode, decode, ne_breakWord_of_top, ne_zero_of_top, top_wordD]
  | add _ _ _ _ | sub _ _ _ _ | and _ _ _ _ | orr _ _ _ _ | eor _ _ _ _ | eor2 _ _ _ _ | lsl _ _ _ _
  | lsr _ _ _ _ | asr _ _ _ _ => simp [encode, decode, ne_breakWord_of_top, ne_zero_of_top, top_wordR]
  | unknown w => exact (decode_eq_unknown_iff w w).mpr ⟨(wellFormed_unknown_iff w).mp hwf, rfl⟩

/-- Settles O3. -/
theorem encodeOfDecodeGivesWord : Obligations.EncodeOfDecodeGivesWord :=
  fun w => ⟨wellFormed_decode w, encode_decode w⟩

/-- R61: a well-formed instruction has exactly one word. -/
theorem decode_eq_iff {i : Instr} (hwf : i.wellFormed = true) (w : Word) : decode w = i ↔ w = encode i := by
  constructor
  · rintro rfl
    exact (encode_decode w).symm
  · rintro rfl
    exact decodeOfEncodeGivesInstruction i hwf

/-! ### Which rows can select a word -/

theorem OpcodeRow.and_mask_of_selects {r : OpcodeRow} {w : Word} (h : r.selects w = true) :
    w &&& r.mask = r.value :=
  eq_of_beq h

/-- Under any second mask, a row that selects a word has the bits of the word that the row tests. -/
theorem OpcodeRow.value_and_of_selects {r : OpcodeRow} {w : Word} (h : r.selects w = true) (m : Word) :
    r.value &&& m = w &&& m &&& r.mask := by
  rw [← r.and_mask_of_selects h, BitVec.and_assoc, BitVec.and_assoc, BitVec.and_comm m]

/-- R62: two rows that agree on the bits both of them test are one row. -/
theorem opcodeTable_disjoint : ∀ r ∈ opcodeTable, ∀ r' ∈ opcodeTable,
    r.value &&& r'.mask = r'.value &&& r.mask → r = r' := by
  decide

theorem row_unique {r r' : OpcodeRow} (hr : r ∈ opcodeTable) (hr' : r' ∈ opcodeTable) {w : Word}
    (h : r.selects w = true) (h' : r'.selects w = true) : r = r' :=
  opcodeTable_disjoint r hr r' hr' (by rw [r.value_and_of_selects h, r'.and_mask_of_selects h'])

/-- R63: every instruction but UNKNOWN has a row of its mnemonic that selects its word. -/
theorem encodingInRow (i : Instr) : EncodingInRow.Statement i :=
  match i with
  | .brk => EncodingInRow.brk
  | .nop => EncodingInRow.nop
  | .b offset => EncodingInRow.b offset
  | .cbz offset cond => EncodingInRow.cbz offset cond
  | .cbnz offset cond => EncodingInRow.cbnz offset cond
  | .movz sc field dest => EncodingInRow.movz sc field dest
  | .movk sc field dest => EncodingInRow.movk sc field dest
  | .addi imm src1 dest => EncodingInRow.addi imm src1 dest
  | .subi imm src1 dest => EncodingInRow.subi imm src1 dest
  | .stur imm op2 src1 dest => EncodingInRow.stur imm op2 src1 dest
  | .ldur imm op2 src1 dest => EncodingInRow.ldur imm op2 src1 dest
  | .add src1 shamt src2 dest => EncodingInRow.add src1 shamt src2 dest
  | .sub src1 shamt src2 dest => EncodingInRow.sub src1 shamt src2 dest
  | .and src1 shamt src2 dest => EncodingInRow.and src1 shamt src2 dest
  | .orr src1 shamt src2 dest => EncodingInRow.orr src1 shamt src2 dest
  | .eor src1 shamt src2 dest => EncodingInRow.eor src1 shamt src2 dest
  | .eor2 src1 shamt src2 dest => EncodingInRow.eor2 src1 shamt src2 dest
  | .lsl src1 shamt src2 dest => EncodingInRow.lsl src1 shamt src2 dest
  | .lsr src1 shamt src2 dest => EncodingInRow.lsr src1 shamt src2 dest
  | .asr src1 shamt src2 dest => EncodingInRow.asr src1 shamt src2 dest
  | .unknown word => EncodingInRow.unknown word

theorem exists_eq_unknown_of_mnemonic {i : Instr} (h : i.mnemonic = .unknown) : ∃ w, i = .unknown w := by
  cases i with
  | unknown w => exact ⟨w, rfl⟩
  | _ => cases h

/-- R63: the one row that selects a word names its instruction. -/
theorem decode_mnemonic_of_selects {r : OpcodeRow} (hr : r ∈ opcodeTable) {w : Word} (h : r.selects w = true) :
    (decode w).mnemonic = r.mnemonic := by
  obtain hunknown | ⟨r', hr', hname, hselects⟩ := encodingInRow (decode w)
  · obtain ⟨v, hv⟩ := exists_eq_unknown_of_mnemonic hunknown
    obtain ⟨hnone, -⟩ := (decode_eq_unknown_iff w v).mp hv
    exact absurd ((hnone r hr).symm.trans h) Bool.false_ne_true
  · rw [encode_decode] at hselects
    rw [row_unique hr hr' h hselects, hname]

/-- Settles O4: whichever row is met first, it is the only one that selects the word. -/
theorem anyRowOrderGivesDecodersMnemonic : Obligations.AnyRowOrderGivesDecodersMnemonic := by
  intro rows hperm w
  cases hfind : rows.find? fun r => r.selects w with
  | some r =>
    have hr : r ∈ opcodeTable := hperm.mem_iff.mp (List.mem_of_find?_eq_some hfind)
    exact decode_mnemonic_of_selects hr (List.find?_some (p := fun r : OpcodeRow => r.selects w) hfind)
  | none =>
    have hnone : ∀ r ∈ opcodeTable, r.selects w = false := fun r hr =>
      Bool.eq_false_of_not_eq_true (List.find?_eq_none.mp hfind r (hperm.mem_iff.mpr hr))
    rw [(decode_eq_unknown_iff w w).mpr ⟨hnone, rfl⟩]
    rfl

/-! ### Words that no row selects -/

/-- Where a comparison with `q` in full is the only test that words with the bits `p` under the mask `m` can
pass, all of them but `q` are UNKNOWN. -/
theorem decode_eq_unknown_of_bits {w m p q : Word} (hp : w &&& m = p) (hq : w ≠ q)
    (hrows : ∀ r ∈ opcodeTable, r.value &&& m = p &&& r.mask → r.mask = 0xFFFFFFFF#32 ∧ r.value = q) :
    decode w = .unknown w := by
  refine (decode_eq_unknown_iff w w).mpr ⟨fun r hr => Bool.eq_false_of_not_eq_true fun h => hq ?_, rfl⟩
  obtain ⟨hmask, hvalue⟩ := hrows r hr (by rw [r.value_and_of_selects h, hp])
  have hw := r.and_mask_of_selects h
  rwa [hmask, hvalue, and_full_mask] at hw

/-- Settles O5: BREAK's is the only row whose value begins as BREAK does. -/
theorem breakAndNopAreComparedInFull : Obligations.BreakAndNopAreComparedInFull := by
  refine fun w => ⟨decode_eq_iff (i := .brk) rfl w, decode_eq_iff (i := .nop) rfl w, fun htop hne => ?_⟩
  exact decode_eq_unknown_of_bits ((and_mask11_eq w 0b11111110110#11).mpr htop) hne (by decide)

/-- The first `n` bits of a word are its value without the others. -/
theorem toNat_top (w : Word) {n : Nat} (hn : n ≤ 32) : (top w n).toNat = w.toNat / 2 ^ (32 - n) := by
  have hlt : w.toNat / 2 ^ (32 - n) < 2 ^ n := by
    rw [Nat.div_lt_iff_lt_mul (by positivity), ← pow_add, Nat.add_sub_of_le hn]
    exact w.isLt
  rw [top, BitVec.extractLsb'_toNat, Nat.shiftRight_eq_div_pow, Nat.mod_eq_of_lt hlt]

/-- Settles O6: NOP's is the only row whose value begins with 6 zeros, and none begins with 11 ones. -/
theorem smallDataWordsDecodeToUnknown : Obligations.SmallDataWordsDecodeToUnknown := by
  refine ⟨fun w hlt hne => ?_, fun w hle => ?_, rfl⟩
  · have htop : top w 6 = 0b000000#6 := by
      apply BitVec.eq_of_toNat_eq
      rw [toNat_top w (by decide), BitVec.toNat_ofNat]
      omega
    exact decode_eq_unknown_of_bits ((and_mask6_eq w _).mpr htop) hne (by decide)
  · have htop : top w 11 = 0b11111111111#11 := by
      apply BitVec.eq_of_toNat_eq
      rw [toNat_top w (by decide), BitVec.toNat_ofNat]
      omega
    have hne : w ≠ 0#32 := by
      rintro rfl
      contradiction
    exact decode_eq_unknown_of_bits ((and_mask11_eq w _).mpr htop) hne (by decide)

end Sys2Proof
end

section
/-! The fields of a line and their signed reading (30_encoding.md R52, R53, R69). -/

namespace Sys2Proof

/-- R52: the characters `a` to `b-1`, counted from the right end. -/
theorem getElem?_reverse_field {l : Line} {a b : Nat} (hb : b ≤ l.length) (i : Nat) :
    ((l.take b).drop a).reverse[i]? = if i < b - a then l.reverse[l.length - b + i]? else none := by
  rw [List.reverse_drop, List.reverse_take, List.length_take, Nat.min_eq_left hb, List.getElem?_take,
    List.getElem?_drop]

/-- R52. -/
theorem unsignedField_eq {l : Line} {w : Word} (hw : wordOfLine l = some w) {a b : Nat} (hb : b ≤ 32) :
    unsignedField l a b = (w.extractLsb' (32 - b) (b - a)).toNat := by
  have hlen := length_of_wordOfLine hw
  refine Nat.eq_of_testBit_eq fun i => Bool.eq_iff_iff.mpr ?_
  rw [unsignedField, testBit_base2_iff, getElem?_reverse_field (hlen ▸ hb), hlen, BitVec.testBit_toNat,
    BitVec.getLsbD_extractLsb']
  by_cases hi : i < b - a
  · simp [hi, getLsbD_of_wordOfLine hw (show 32 - b + i < 32 by omega)]
  · simp [hi]

/-- R53: the sign of a field is its leftmost character. -/
theorem msb_field_iff {l : Line} {w : Word} (hw : wordOfLine l = some w) {a b : Nat} (hab : a < b) (hb : b ≤ 32) :
    (w.extractLsb' (32 - b) (b - a)).msb = true ↔ l[a]? = some '1' := by
  have hbit : 32 - b + (b - a - 1) = 31 - a := by omega
  rw [BitVec.msb_eq_getLsbD_last, BitVec.getLsbD_extractLsb', decide_eq_true (by omega), Bool.true_and, hbit]
  exact (lineCharacterIsWordBit l).2 w hw a (by omega)

/-- Settles O8. -/
theorem fieldOfLineIsFieldOfWord : Obligations.FieldOfLineIsFieldOfWord := by
  intro l w hw a b hab hb
  refine ⟨unsignedField_eq hw hb, ?_⟩
  rw [signedField, unsignedField_eq hw hb, BitVec.toInt_eq_msb_cond]
  simp only [msb_field_iff hw hab hb]
  norm_cast

/-- Settles O9: the bit `n - 1` of a field is its sign. -/
theorem signExtensionKeepsSignedValue : Obligations.SignExtensionKeepsSignedValue := by
  intro n v hn
  rw [Machine.toInt_sext32 v hn, BitVec.toInt_eq_msb_cond, BitVec.msb_eq_getLsbD_last]
  norm_cast

/-- Settles O11. -/
theorem shownTargetIsBranchTarget : Obligations.ShownTargetIsBranchTarget :=
  fun _ offset pc hn => ⟨rfl, Machine.toNat_add_four_mul_sext32 pc offset hn⟩

/-- Settles O10. -/
theorem examplesDisassembleAsPrinted : Obligations.ExamplesDisassembleAsPrinted := by
  unfold Obligations.ExamplesDisassembleAsPrinted
  decide

end Sys2Proof
end

section
/-! When a step is enabled and what it answers where none is (40_execution_step.md R81, R82, R88, R89), and the
word that a host places for the next step. -/

namespace Sys2Proof.Machine

/-- Settles O19. -/
theorem stepRunsDecodedInstruction : Obligations.StepRunsDecodedInstruction :=
  fun _ _ hr hf hw => step_of_fetch hr hf hw

theorem State.mapped_eq_false_iff (s : State) (a : Word) : s.mapped a = false ↔ s.fetch a = none :=
  Option.isSome_eq_false_iff.trans Option.isNone_iff_eq_none

/-- Settles O22. -/
theorem stepStopsByName : Obligations.StepStopsByName := by
  refine fun s => ⟨step_of_halted, fun hr hmapped => ?_, fun hr hmapped hw => ?_⟩
  · exact step_of_unmapped hr ((s.mapped_eq_false_iff s.pc).mp hmapped)
  · obtain ⟨w, hf⟩ := Option.isSome_iff_exists.mp hmapped
    exact step_of_spent hr hf hw

/-- 40_execution_step.md R81, R89: a step answers a next state exactly where it is enabled. -/
theorem step_next_iff_enabled (s : State) : (∃ t, step s = .next t) ↔ s.Enabled := by
  constructor
  · rintro ⟨t, h⟩
    obtain ⟨w, -, hr, hf, hw, -⟩ := step_next_cases h
    exact ⟨hr, State.mapped_of_fetch hf, hw⟩
  · rintro ⟨hr, hmapped, hw⟩
    obtain ⟨w, hf⟩ := Option.isSome_iff_exists.mp hmapped
    obtain ⟨t, -, h⟩ := step_of_fetch hr hf hw
    exact ⟨_, h⟩

/-- 10_state.md R15: a pc where no instruction stands is one past the last line. -/
theorem State.Inv.pc_of_unmapped {s : State} (hinv : s.Inv) (h : s.mapped s.pc = false) :
    s.pc.toNat = 96 + 4 * s.imem.length := by
  obtain ⟨k, hk, hpc⟩ := hinv.pcOnLine
  have hnot : ¬ k < s.imem.length := fun hlt =>
    Bool.false_ne_true (h.symm.trans ((s.mapped_iff s.pc).mpr ⟨k, hlt, hpc⟩))
  obtain rfl : k = s.imem.length := by omega
  exact hpc

/-- Settles O21: without a watchdog `State.Enabled` is R81's condition. -/
theorem stepEnabledExactlyWhenRunningAndMapped : Obligations.StepEnabledExactlyWhenRunningAndMapped := by
  intro s hinv hcap
  have hw : s.watchdog ≠ some 0 := by simp [hcap]
  refine ⟨(step_next_iff_enabled s).trans ?_, fun _ => hinv.pc_of_unmapped⟩
  exact ⟨fun ⟨hr, hmapped, _⟩ => ⟨hr, hmapped⟩, fun ⟨hr, hmapped⟩ => ⟨hr, hmapped, hw⟩⟩

/-! ### The word placed for the next step -/

theorem getElem?_placeWord (stream : List Word) (k : Nat) (w : Word) : (placeWord stream k w)[k]? = some w := by
  unfold placeWord
  split
  next hlt => simp [hlt]
  next hge =>
    have hlen : (stream ++ List.replicate (k - stream.length) 0#32).length = k := by simp; omega
    rw [List.getElem?_append_right hlen.le, hlen, Nat.sub_self]
    rfl

theorem State.withFetchWord_not_halted (s : State) (nbits w : Nat) : (s.withFetchWord nbits w).runState ≠ .halted := by
  unfold State.withFetchWord
  simp only
  split
  · decide
  · assumption

theorem State.withFetchWord_not_spent (s : State) (nbits w : Nat) : (s.withFetchWord nbits w).watchdog ≠ some 0 := by
  unfold State.withFetchWord
  simp only
  split
  · simp
  · assumption

/-- 10_state.md R15: the pc is then an instruction address, where `withFetchWord` left it or put it. -/
theorem State.withFetchWord_pc_onLine (s : State) (nbits w : Nat) :
    ∃ k, (s.withFetchWord nbits w).pc.toNat = 96 + 4 * k := by
  unfold State.withFetchWord Config.pcBase
  simp only
  split
  next hline => exact ⟨(s.pc.toNat - 96) / 4, by omega⟩
  next => exact ⟨0, rfl⟩

theorem State.withFetchWord_imem (s : State) (nbits w : Nat) :
    (s.withFetchWord nbits w).imem =
      placeWord s.imem (((s.withFetchWord nbits w).pc.toNat - 96) / 4) (BitVec.ofNat 32 (w % 2 ^ nbits)) := rfl

theorem State.withFetchWord_fetch (s : State) (w : Word) :
    (s.withFetchWord 32 w.toNat).fetch (s.withFetchWord 32 w.toNat).pc = some w := by
  obtain ⟨k, hpc⟩ := s.withFetchWord_pc_onLine 32 w.toNat
  have hindex : (96 + 4 * k - 96) / 4 = k := by omega
  have hword : BitVec.ofNat 32 (w.toNat % 2 ^ 32) = w := by
    rw [Nat.mod_eq_of_lt w.isLt, BitVec.ofNat_toNat, BitVec.setWidth_eq]
  refine (fetchReadsTheLineAtItsAddress _ _ w).mpr ⟨k, ?_, hpc⟩
  rw [State.withFetchWord_imem, hpc, hindex, hword, getElem?_placeWord]

/-- Settles O30: what `withFetchWord` releases, extends and takes off leaves a step enabled at `w`. -/
theorem placedWordRunsNext : Obligations.PlacedWordRunsNext := fun s w =>
  step_of_fetch (s.withFetchWord_not_halted 32 w.toNat) (s.withFetchWord_fetch w) (s.withFetchWord_not_spent 32 w.toNat)

end Sys2Proof.Machine
end

section
/-! What every step counts (40_execution_step.md R89, R90): the counter, the records and the watchdog; and the
program that never ends. -/

namespace Sys2Proof.Machine

/-! ### The counter and the records -/

theorem step_cycle {s t : State} (h : step s = .next t) : t.cycle = s.cycle + 1 := by
  obtain ⟨w, u, -, -, -, hu, -, rfl⟩ := step_next_cases h
  obtain ⟨-, -, -, hcycle, -⟩ := exec_restKept hu
  rw [retire_cycle, hcycle]

theorem step_trace_length {s t : State} (h : step s = .next t) : t.trace.length = s.trace.length + 1 := by
  obtain ⟨w, u, -, -, -, hu, -, rfl⟩ := step_next_cases h
  obtain ⟨-, -, -, -, -, htrace⟩ := exec_restKept hu
  rw [retire_trace, htrace, List.length_cons]

theorem run_trace_length {k : Nat} {s t : State} (h : core.run k s = .next t) :
    t.trace.length = s.trace.length + k := by
  induction k generalizing s with
  | zero => cases Host.Outcome.next.inj h; rfl
  | succ k ih =>
    obtain ⟨u, hu, hrun⟩ := run_succ_next_cases h
    rw [ih hrun, step_trace_length hu]
    omega

theorem SameToPrograms.step_next {s s' t : State} (h : SameToPrograms s s') (hs : step s = .next t) :
    ∃ t', step s' = .next t' ∧ SameToPrograms t t' := by
  have hagree := step_agree h
  rw [hs] at hagree
  generalize step s' = o' at hagree
  cases hagree with
  | next hsame => exact ⟨_, rfl, hsame⟩

theorem sameToPrograms_withCycle (s : State) (c : Nat) : SameToPrograms s { s with cycle := c } :=
  ⟨rfl, rfl, rfl, rfl, rfl, rfl⟩

/-- Settles O26. -/
theorem cycleCountsStepsAndNothingReadsIt : Obligations.CycleCountsStepsAndNothingReadsIt :=
  ⟨fun _ _ => step_cycle, fun _ _ _ => run_trace_length, fun s _ c => (sameToPrograms_withCycle s c).step_next⟩

/-! ### The watchdog -/

/-- 40_execution_step.md R89: a step needs one of the steps that the watchdog allows, and uses it up. -/
theorem step_watchdog {s t : State} {m : Nat} (h : step s = .next t) (hm : s.watchdog = some m) :
    0 < m ∧ t.watchdog = some (m - 1) := by
  obtain ⟨w, u, -, -, hw, hu, -, rfl⟩ := step_next_cases h
  obtain ⟨-, -, -, -, hdog, -⟩ := exec_restKept hu
  refine ⟨Nat.pos_of_ne_zero fun hzero => hw (hzero ▸ hm), ?_⟩
  rw [retire_watchdog, hdog, hm, Option.map_some]

/-- Settles O28, by induction on the number of steps, for every count still allowed. -/
theorem watchdogBoundsTheRun : Obligations.WatchdogBoundsTheRun := by
  intro m k
  induction k generalizing m with
  | zero =>
    intro s t hm h
    cases Host.Outcome.next.inj h
    exact ⟨m.zero_le, hm⟩
  | succ k ih =>
    intro s t hm h
    obtain ⟨u, hu, hrun⟩ := run_succ_next_cases h
    obtain ⟨hpos, hdog⟩ := step_watchdog hu hm
    obtain ⟨hk, ht⟩ := ih (m - 1) u t hdog hrun
    have hleft : m - 1 - k = m - (k + 1) := by omega
    exact ⟨by omega, hleft ▸ ht⟩

/-! ### The branch to itself -/

/-- 42_branch.md R105, R106: B with offset 0, from a mapped pc, leaves the whole state as it was. -/
theorem exec_b_zero {s : State} (h : s.mapped s.pc = true) : exec (.b 0#26) s = .next s := by
  have htarget : s.pc + 4#32 * sext32 0#26 = s.pc := by
    have hoffset : 4#32 * sext32 0#26 = 0#32 := by decide
    rw [hoffset, BitVec.add_zero]
  have hto : s.branchTo (sext32 0#26) true = s := by simp [State.branchTo, htarget, h]
  rw [exec, execB, hto]

theorem step_selfBranch {s : State} (hf : s.fetch s.pc = some 0x14000000#32) (hr : s.runState ≠ .halted)
    (hw : s.watchdog ≠ some 0) : step s = .next (retire (.b 0#26) s s) := by
  have hdecode : decode 0x14000000#32 = .b 0#26 := by decide
  obtain ⟨t, ht, hstep⟩ := step_of_fetch hr hf hw
  rw [hdecode] at ht hstep
  cases Host.Outcome.next.inj ((exec_b_zero (State.mapped_of_fetch hf)).symm.trans ht)
  exact hstep

/-- Settles O29, by induction on the number of steps: a step keeps all that the hypotheses speak of. -/
theorem selfBranchRunsForEver : Obligations.SelfBranchRunsForEver := by
  intro s hf hr hcap k
  induction k generalizing s with
  | zero => exact ⟨s, rfl, rfl, rfl, rfl⟩
  | succ k ih =>
    have hstep := step_selfBranch hf hr (by simp [hcap])
    rw [run_succ_of_next hstep]
    exact ih (retire (.b 0#26) s s) hf hr (by simp [hcap])

end Sys2Proof.Machine
end

section
/-! The record that a step emits (40_execution_step.md R85). -/

namespace Sys2Proof.Machine

/-! ### The loader's DATA_BASE and HAS_DATA -/

/-- What every line of a scan keeps, the scan keeps. -/
theorem LoaderState.scan_keeps {P : LoaderState → Prop} (keep : ∀ l k w, P l → P (l.scanLine k w))
    {l : LoaderState} (hl : P l) (k : Nat) (stream : List Word) : P (l.scan k stream) := by
  induction stream generalizing l k with
  | nil => exact hl
  | cons w ws ih => exact ih (keep l k w hl) (k + 1)

/-- Inside a data segment, and once a word has been stored, DATA_BASE has a value. -/
def LoaderState.Based (l : LoaderState) : Prop := l.inData = true ∨ l.stored = true → l.dataBase.isSome = true

theorem LoaderState.scanLine_based (l : LoaderState) (k : Nat) (w : Word) (h : l.Based) : (l.scanLine k w).Based := by
  unfold LoaderState.scanLine
  split
  · split
    next hin => exact fun _ => h (.inl hin)
    next => exact fun _ => rfl
  · split
    next hin => exact fun _ => h (.inl hin)
    next => exact h

/-- 70_reset_and_hazards.md R172, R173: where HAS_DATA holds, some sentinel has given DATA_BASE a value. -/
theorem dataBase_of_stored {stream : List Word} (h : (scanStream stream).stored = true) :
    ∃ base, (scanStream stream).dataBase = some base := by
  have hstart : LoaderState.start.Based := by simp [LoaderState.Based, LoaderState.start]
  have hbased : (scanStream stream).Based := LoaderState.scan_keeps LoaderState.scanLine_based hstart 0 stream
  exact Option.isSome_iff_exists.mp (hbased (.inr h))

theorem State.Inv.dataBase_of_hasData {s : State} (hinv : s.Inv) (h : s.hasData = true) :
    ∃ base, s.dataBase = some base := by
  rw [hinv.dataBaseLoaded]
  exact dataBase_of_stored (hinv.hasDataLoaded.symm.trans h)

/-! ### The dump of a state -/

theorem State.dump_of_noData {s : State} (h : s.hasData = false) : s.dump = none := by
  simp [State.dump, h]

theorem State.dump_of_data {s : State} {base : Word} (h : s.hasData = true) (hbase : s.dataBase = some base) :
    s.dump = some ⟨base, s.dmem.filter (shownBy base)⟩ := by
  simp [State.dump, h, hbase]

/-- R85: a word of a dump, by its address taken as an integer. -/
theorem Dump.word_at {m : Memory} (hm : m.wf) {base a : Word} {k : Nat} (ha : a.toNat = base.toNat + 4 * k) :
    (Dump.mk base (m.filter (shownBy base))).word k = some (dumpRead m a) := by
  have hk : k < dumpLen base := (lt_dumpLen_iff base k).mpr (ha ▸ a.isLt)
  have haddr : dumpAddr base k = a := BitVec.eq_of_toNat_eq ((toNat_dumpAddr_of_lt hk).trans ha.symm)
  rw [Dump.word_eq_dumpRead hm hk, haddr]

/-! ### The step -/

/-- Settles O24: the record is the snapshot that `retire` adds, and its dump that of the state dispatched. -/
theorem stepEmitsOneRecord : Obligations.StepEmitsOneRecord := by
  intro s t w hinv hstep hw
  obtain ⟨u, hu, rfl⟩ := step_next_of_fetch hstep hw
  obtain ⟨-, hbase, hdata, -, -, htrace⟩ := exec_restKept hu
  refine ⟨snapshot (decode w) s u, by rw [retire_trace, htrace], rfl, rfl, rfl, fun hno => ?_, fun hyes => ?_⟩
  · exact State.dump_of_noData (hdata.trans hno)
  · obtain ⟨base, hb⟩ := hinv.dataBase_of_hasData hyes
    have hwf : u.dmem.wf := exec_dmem_wf hu hinv.memWf
    exact ⟨_, base, State.dump_of_data (hdata.trans hyes) (hbase.trans hb), hb,
      fun _ _ ha => Dump.word_at hwf ha, fun _ hk => Dump.word_eq_none _ hk⟩

end Sys2Proof.Machine
end

section
/-! BREAK, NOP and UNKNOWN (41_system_break_nop_unknown.md): their effect, the words they are decoded from, and
the step of an instruction that changes the pc alone. -/

namespace Sys2Proof.Machine

/-! ### The effect -/

/-- R100. -/
theorem exec_brk (s : State) : exec .brk s = .next s.latchBreak.advance := rfl

/-- R101. -/
theorem exec_nop (s : State) : exec .nop s = .next s.advance := rfl

/-- R102. -/
theorem exec_unknown (w : Word) (s : State) : exec (.unknown w) s = .next s.advance := rfl

/-- R100: from a latch that is not Halted, BREAK moves it one stage. -/
theorem RunState.afterBreak_of_not_halted {r : RunState} (h : r ≠ .halted) :
    r.afterBreak = if r = .running then .haltArmed else .halted := by
  cases r with
  | running | haltArmed => rfl
  | halted => contradiction

/-! ### The step -/

/-- 40_execution_step.md R82: where the instruction only advances the pc, its step adds to that the count and a
record with the instruction's own text. -/
theorem step_of_exec_advance {s : State} {w : Word} {i : Instr} (hr : s.runState ≠ .halted)
    (hw : s.watchdog ≠ some 0) (hf : s.fetch s.pc = some w) (hi : decode w = i)
    (hexec : exec i s = .next s.advance) :
    ∃ t r, step s = .next t ∧ RegsKept s t ∧ MemKept s t ∧ t.runState = s.runState ∧
      t.pc = s.pc + 4#32 ∧ t.cycle = s.cycle + 1 ∧ t.trace = r :: s.trace ∧
      r.text = lineText (disasm i s.pc) := by
  obtain ⟨u, hu, hstep⟩ := step_of_fetch hr hf hw
  rw [hi] at hu hstep
  cases Host.Outcome.next.inj (hexec.symm.trans hu)
  obtain ⟨hregs, hmem, hrun, -⟩ := s.advance_onlyPcChanged
  exact ⟨retire i s s.advance, snapshot i s s.advance, hstep, hregs, hmem, hrun, rfl, rfl, rfl, rfl⟩

/-! ### The words of UNKNOWN -/

/-- 30_encoding.md R63. -/
theorem selects_eq_false_iff (r : OpcodeRow) (w : Word) : r.selects w = false ↔ w &&& r.mask ≠ r.value :=
  beq_eq_false_iff_ne

/-- 30_encoding.md R67. -/
theorem decode_mnemonic_unknown_iff (w : Word) :
    (decode w).mnemonic = .unknown ↔ ∀ r ∈ opcodeTable, w &&& r.mask ≠ r.value := by
  simp only [← selects_eq_false_iff]
  constructor
  · intro h
    obtain ⟨v, hv⟩ := exists_eq_unknown_of_mnemonic h
    exact ((decode_eq_unknown_iff w v).mp hv).1
  · intro hnone
    rw [(decode_eq_unknown_iff w w).mpr ⟨hnone, rfl⟩]
    rfl

/-! ### The statements -/

/-- Settles O42: the decoder compares NOP's word in full, and NOP's effect and step are those of an advance. -/
theorem nopOnlyAdvances : Obligations.NopOnlyAdvances := by
  refine ⟨decode_eq_iff (i := .nop) rfl, fun s => ⟨_, exec_nop s, s.advance_onlyPcChanged, rfl⟩, ?_⟩
  intro s hr hw hf
  exact step_of_exec_advance hr hw hf ((decode_eq_iff (i := .nop) rfl _).mpr rfl) (exec_nop s)

/-- Settles O43: the decoder's default is the opcode map's, and its effect and step are those of an advance. -/
theorem unknownOnlyAdvances : Obligations.UnknownOnlyAdvances := by
  refine ⟨decode_mnemonic_unknown_iff, fun w s => ⟨_, exec_unknown w s, s.advance_onlyPcChanged, rfl⟩, ?_⟩
  intro s w hr hw hf hname
  obtain ⟨v, hv⟩ := exists_eq_unknown_of_mnemonic hname
  exact step_of_exec_advance hr hw hf hv (exec_unknown v s)

/-- Settles O44: what the advance and the move of the latch leave alone. -/
theorem breakMovesLatchAndAdvances : Obligations.BreakMovesLatchAndAdvances := by
  intro s h
  have hlatch := RunState.afterBreak_of_not_halted h
  exact ⟨_, exec_brk s, hlatch, rfl, fun _ => rfl, fun _ => rfl, exec_restKept (exec_brk s)⟩

end Sys2Proof.Machine
end

section
/-! B, CBZ and CBNZ (42_branch.md): the pc of a branch by its target as an integer, and the condition that is
tested. -/

namespace Sys2Proof.Machine

/-! ### The effect -/

/-- R106. -/
theorem exec_b (offset : BitVec 26) (s : State) : exec (.b offset) s = .next (s.branchTo (sext32 offset) true) := rfl

/-- R107. -/
theorem exec_cbz (offset : BitVec 19) (cond : RegIdx) (s : State) :
    exec (.cbz offset cond) s = .next (s.branchTo (sext32 offset) (s.regIsZero cond)) := rfl

/-- R108. -/
theorem exec_cbnz (offset : BitVec 19) (cond : RegIdx) (s : State) :
    exec (.cbnz offset cond) s = .next (s.branchTo (sext32 offset) (!s.regIsZero cond)) := rfl

/-- R107: all 32 bits of a register are 0 when its value is. -/
theorem State.regIsZero_iff (s : State) (cond : RegIdx) : s.regIsZero cond = true ↔ (s.readReg cond).toNat = 0 := by
  rw [State.regIsZero, beq_iff_eq, BitVec.toNat_eq, BitVec.toNat_ofNat, Nat.zero_mod]

/-- R108. -/
theorem State.not_regIsZero_iff (s : State) (cond : RegIdx) :
    (!s.regIsZero cond) = true ↔ (s.readReg cond).toNat ≠ 0 := by
  rw [Bool.not_eq_true', ← Bool.not_eq_true, s.regIsZero_iff]

/-! ### The target -/

/-- R105: a word with the value of the target, modulo 2^32, is the target. -/
theorem eq_branchTarget {n : Nat} (hn : n ≤ 32) {offset : BitVec n} {pc target : Word}
    (h : (target.toNat : Int) = (pc.toNat + 4 * offset.toInt) % 2 ^ 32) : target = pc + 4#32 * sext32 offset :=
  BitVec.eq_of_toNat_eq (Int.ofNat_inj.mp (h.trans (toNat_add_four_mul_sext32 pc offset hn).symm))

/-- R105, with the target as an integer. -/
theorem State.branchTo_pc_of_target {n : Nat} (hn : n ≤ 32) {offset : BitVec n} {s : State} {target : Word}
    (h : (target.toNat : Int) = (s.pc.toNat + 4 * offset.toInt) % 2 ^ 32) (taken : Bool) :
    (s.branchTo (sext32 offset) taken).pc = if taken && s.mapped target then target else s.pc + 4#32 := by
  rw [eq_branchTarget hn h, State.branchTo_pc]

/-! ### The statements -/

/-- Settles O46: B is always taken. -/
theorem branchGoesToMappedTarget : Obligations.BranchGoesToMappedTarget := by
  refine fun offset s => ⟨_, exec_b offset s, s.branchTo_onlyPcChanged _ _, fun target h => ?_⟩
  rw [State.branchTo_pc_of_target (by decide) h, Bool.true_and]

/-- Settles O47: CBZ is taken when its register is 0. -/
theorem cbzBranchesOnZero : Obligations.CbzBranchesOnZero := by
  refine fun offset cond s => ⟨_, exec_cbz offset cond s, s.branchTo_onlyPcChanged _ _, fun target h => ?_⟩
  simp only [State.branchTo_pc_of_target (by decide) h, Bool.and_eq_true, State.regIsZero_iff]

/-- Settles O48: CBNZ is taken when its register is not 0. -/
theorem cbnzBranchesOnNonzero : Obligations.CbnzBranchesOnNonzero := by
  refine fun offset cond s => ⟨_, exec_cbnz offset cond s, s.branchTo_onlyPcChanged _ _, fun target h => ?_⟩
  simp only [State.branchTo_pc_of_target (by decide) h, Bool.and_eq_true, State.not_regIsZero_iff]

end Sys2Proof.Machine
end

section
/-! MOVZ and MOVK (43_move_wide.md): their effect, the words of their discriminators and their printed form. -/

namespace Sys2Proof.Machine

/-! ### The effect -/

/-- R110. -/
theorem exec_movz (sc : BitVec 2) (field : BitVec 16) (dest : RegIdx) (s : State) :
    exec (.movz sc field dest) s = .next s.advance := rfl

/-- R111. -/
theorem exec_movk (sc : BitVec 2) (field : BitVec 16) (dest : RegIdx) (s : State) :
    exec (.movk sc field dest) s = .next s.advance := rfl

/-! ### The printed form -/

/-- R110: the operands `R<dest>, <field>, LSL <shift>` of a line, spelled out after its mnemonic. -/
theorem lineText_moveWide (m : Mnemonic) (dest : RegIdx) (field shift : Nat) :
    lineText ⟨m, [.reg dest, .bare field, .lslBy shift]⟩ =
      mnemonicText m ++ " R" ++ Nat.repr dest.toNat ++ ", " ++ Nat.repr field ++ ", LSL " ++ Nat.repr shift := by
  have hreg : " R" = " " ++ "R" := by decide
  have hshift : ", LSL " = ", " ++ "LSL " := by decide
  simp only [lineText, operandsText, operandText, hreg, hshift, String.append_assoc]

/-- R110. -/
theorem lineText_movz (sc : BitVec 2) (field : BitVec 16) (dest : RegIdx) (pc : Word) :
    lineText (disasm (.movz sc field dest) pc) = "MOVZ R" ++ Nat.repr dest.toNat ++ ", " ++
      Nat.repr field.toNat ++ ", LSL " ++ Nat.repr (16 * sc.toNat) := by
  have hname : mnemonicText .movz ++ " R" = "MOVZ R" := by decide
  rw [disasm, lineText_moveWide, hname]

/-- R111. -/
theorem lineText_movk (sc : BitVec 2) (field : BitVec 16) (dest : RegIdx) (pc : Word) :
    lineText (disasm (.movk sc field dest) pc) = "MOVK R" ++ Nat.repr dest.toNat ++ ", " ++
      Nat.repr field.toNat ++ ", LSL " ++ Nat.repr (16 * sc.toNat) := by
  have hname : mnemonicText .movk ++ " R" = "MOVK R" := by decide
  rw [disasm, lineText_moveWide, hname]

/-! ### The statement -/

/-- Settles O45: the words are the encoder's, and the effect is that of an advance. -/
theorem movzAndMovkHaveNoEffect : Obligations.MovzAndMovkHaveNoEffect := by
  intro sc field dest
  have hmovz := decodeOfEncodeGivesInstruction (.movz sc field dest) rfl
  have hmovk := decodeOfEncodeGivesInstruction (.movk sc field dest) rfl
  refine ⟨hmovz, hmovk, lineText_movz sc field dest, lineText_movk sc field dest, fun s => ⟨?_, ?_⟩⟩
  · exact ⟨_, exec_movz sc field dest s, s.advance_onlyPcChanged, rfl⟩
  · exact ⟨_, exec_movk sc field dest s, s.advance_onlyPcChanged, rfl⟩

end Sys2Proof.Machine
end

section
/-! ADDI and SUBI (44_immediate_arith.md): their effect, and the signed arithmetic of the unit modulo 2^32, which the
register forms share (46_register_arith_logic.md R130). -/

namespace Sys2Proof.Machine

/-! ### The arithmetic -/

/-- R130: an overflow wraps, so the sum of the signed readings is kept modulo 2^32. -/
theorem toNat_aluAdd (a b : Word) : ((aluAdd a b).toNat : Int) = (a.toInt + b.toInt) % 2 ^ 32 := by
  rw [toNat_eq_toInt_emod, aluAdd, BitVec.toInt_add]
  exact Int.bmod_emod

/-- R130, with the first operand as the minuend. -/
theorem toNat_aluSub (a b : Word) : ((aluSub a b).toNat : Int) = (a.toInt - b.toInt) % 2 ^ 32 := by
  rw [toNat_eq_toInt_emod, aluSub, BitVec.toInt_sub]
  exact Int.bmod_emod

/-! ### The effect -/

/-- R115. -/
theorem exec_addi (imm : BitVec 12) (src1 dest : RegIdx) (s : State) :
    exec (.addi imm src1 dest) s = .next (s.immediateOp aluAdd imm src1 dest) := rfl

/-- R116. -/
theorem exec_subi (imm : BitVec 12) (src1 dest : RegIdx) (s : State) :
    exec (.subi imm src1 dest) s = .next (s.immediateOp aluSub imm src1 dest) := rfl

/-! ### The statement -/

/-- Settles O49: the result is the unit's on the old register and the sign-extended field, which keeps the field's
signed value. -/
theorem immediateArithmeticIsSignedModulo : Obligations.ImmediateArithmeticIsSignedModulo := by
  intro imm src1 dest s
  have himm : (sext32 imm).toInt = imm.toInt := toInt_sext32 imm (by decide)
  constructor
  · refine ⟨_, exec_addi imm src1 dest s, s.immediateOp_onlyRegWritten _ imm src1 dest, ?_⟩
    rw [State.immediateOp_readReg_dest, toNat_aluAdd, himm]
  · refine ⟨_, exec_subi imm src1 dest s, s.immediateOp_onlyRegWritten _ imm src1 dest, ?_⟩
    rw [State.immediateOp_readReg_dest, toNat_aluSub, himm]

end Sys2Proof.Machine
end

section
/-! STUR and LDUR (45_load_store.md): the effective address, the cell a store writes and a load reads, and the
stores that no dump shows. -/

namespace Sys2Proof.Machine

/-! ### The effective address and the store -/

/-- Settles O56: the law of a base plus four times a sign-extended field, which branch targets share. -/
theorem effectiveAddressCountsWords : Obligations.EffectiveAddressCountsWords :=
  fun s imm src1 => toNat_add_four_mul_sext32 (s.readReg src1) imm (by decide)

/-- Settles O57: the effect of STUR is a store to the effective address and an advance. -/
theorem sturStoresOneWord : Obligations.SturStoresOneWord := by
  intro imm op2 src1 dest s
  refine ⟨_, exec_stur imm op2 src1 dest s, ?written, ?others, fun _ => rfl, rfl, ⟨rfl, rfl, rfl, rfl, rfl, rfl⟩, rfl⟩
  case written => exact memRead_memWrite_same s.dmem _ _
  case others => exact fun b hb => memRead_memWrite_ne s.dmem _ hb

/-! ### The load -/

/-- An advance alone is within the frame of an instruction that may write `dest`. -/
theorem State.advance_onlyRegWritten (s : State) (dest : RegIdx) : OnlyRegWritten dest s s.advance := by
  obtain ⟨hregs, hmem, hlatch, hrest⟩ := s.advance_onlyPcChanged
  exact ⟨fun r _ => hregs r, hmem, hlatch, hrest, rfl⟩

/-- Settles O58: the load writes `dest` when the cell is present and only advances when it is absent. -/
theorem ldurLoadsOnlyPresentCells : Obligations.LdurLoadsOnlyPresentCells := by
  intro imm op2 src1 dest s
  cases hread : memRead s.dmem (s.effAddr imm src1) with
  | none =>
    exact ⟨_, exec_ldur_of_absent hread op2 dest, s.advance_onlyRegWritten dest, nofun, fun _ => rfl⟩
  | some v =>
    refine ⟨_, exec_ldur_of_present hread op2 dest, s.writeReg_advance_onlyRegWritten dest v, fun u hu => ?_,
      fun habsent => ?_⟩
    · rw [State.advance_readReg, State.readReg_writeReg_same, Option.some.inj hu]
    · exact absurd (hread.symm.trans ((memPresent_eq_false_iff _ _).mp habsent)) nofun

/-- Settles O59: the store leaves the cell present with the register's value, and the load reads that cell. -/
theorem loadAfterStoreGivesStoredValue : Obligations.LoadAfterStoreGivesStoredValue := by
  intro imm imm' op2 op2' src1 dest src1' dest' s t u hstore hmem haddr
  obtain ⟨t', hstore', hwritten, -⟩ := sturStoresOneWord imm op2 src1 dest s
  obtain rfl : t = t' := Host.Outcome.next.inj (hstore.symm.trans hstore')
  have hread : memRead u.dmem (u.effAddr imm' src1') = some (s.readReg dest) := by rw [hmem, haddr, hwritten]
  obtain ⟨v, hload, -, hpresent, -⟩ := ldurLoadsOnlyPresentCells imm' op2' src1' dest' u
  exact ⟨v, hload, hpresent _ hread⟩

/-! ### What no dump shows (R121 (c), 40_execution_step.md R85) -/

theorem State.advance_dump (s : State) : s.advance.dump = s.dump := rfl

/-- The cell that a store below the base writes is one the dump leaves out. -/
theorem State.store_dump_of_below {s : State} {base a : Word} (hbase : s.dataBase = some base)
    (h : a.toNat < base.toNat) (v : Word) : (s.store a v).dump = s.dump := by
  have hcells : (memWrite s.dmem a v).filter (shownBy base) = s.dmem.filter (shownBy base) :=
    Memory.filter_insert _ (shownBy_below h) s.dmem v
  simp only [State.dump, State.store_hasData, State.store_dataBase, State.store_dmem, hbase, Option.map_some, hcells]

/-- Canonical memories with equal DumpReads from the base on show the same cells, whatever stands below it. -/
theorem filter_shownBy_congr_from {m n : Memory} (hm : m.wf) (hn : n.wf) {base : Word}
    (h : ∀ a : Word, base.toNat ≤ a.toNat → dumpRead m a = dumpRead n a) :
    m.filter (shownBy base) = n.filter (shownBy base) :=
  Memory.eq_of_read_eq (Memory.filter_wf hm _) (Memory.filter_wf hn _) fun a => by
    rw [memRead_filter_shownBy hm, memRead_filter_shownBy hn]
    obtain hbelow | hfrom := Nat.lt_or_ge a.toNat base.toNat
    · simp [Option.filter, shownBy_below hbelow]
    · rw [h a hfrom]

/-- Settles O60: the filter that makes a dump leaves out the cell of such a store, and its canonical result is fixed by
the DumpReads from the base on. -/
theorem storeBelowDataBaseNeverShows : Obligations.StoreBelowDataBaseNeverShows := by
  refine ⟨fun imm op2 src1 dest s => ?_, fun s t base hs ht hdata hsbase htbase hread => ?_⟩
  · refine ⟨_, exec_stur imm op2 src1 dest s, memRead_memWrite_same s.dmem _ _,
      fun hnoData => State.dump_of_noData hnoData, fun base hbase hbelow => ?_⟩
    rw [State.advance_dump, State.store_dump_of_below hbase hbelow]
  · simp only [State.dump, hdata, hsbase, htbase, Option.map_some, filter_shownBy_congr_from hs ht hread]

end Sys2Proof.Machine
end

section
/-! ADD, SUB, AND, ORR and EOR (46_register_arith_logic.md): their effect, and the logic of the unit bit by bit. -/

namespace Sys2Proof.Machine

/-! ### The logic of the unit, bit by bit -/

/-- R127. -/
theorem getLsbD_aluAnd_iff (a b : Word) (k : Nat) :
    (aluAnd a b).getLsbD k = true ↔ a.getLsbD k = true ∧ b.getLsbD k = true := by
  rw [aluAnd, BitVec.getLsbD_and, Bool.and_eq_true]

/-- R128. -/
theorem getLsbD_aluOrr_iff (a b : Word) (k : Nat) :
    (aluOrr a b).getLsbD k = true ↔ a.getLsbD k = true ∨ b.getLsbD k = true := by
  rw [aluOrr, BitVec.getLsbD_or, Bool.or_eq_true]

/-- R129. -/
theorem getLsbD_aluEor_iff (a b : Word) (k : Nat) :
    (aluEor a b).getLsbD k = true ↔ ¬(a.getLsbD k = true ↔ b.getLsbD k = true) := by
  rw [aluEor, BitVec.getLsbD_xor, Bool.xor_iff_ne, ne_eq, Bool.eq_iff_iff]

section
variable (src1 : RegIdx) (shamt : BitVec 6) (src2 dest : RegIdx) (s : State)

/-! ### The effect -/

/-- R125. -/
theorem exec_add : exec (.add src1 shamt src2 dest) s = .next (s.registerOp aluAdd src1 src2 dest) := rfl

/-- R126. -/
theorem exec_sub : exec (.sub src1 shamt src2 dest) s = .next (s.registerOp aluSub src1 src2 dest) := rfl

/-- R127. -/
theorem exec_and : exec (.and src1 shamt src2 dest) s = .next (s.registerOp aluAnd src1 src2 dest) := rfl

/-- R128. -/
theorem exec_orr : exec (.orr src1 shamt src2 dest) s = .next (s.registerOp aluOrr src1 src2 dest) := rfl

/-- R129, by the first discriminator. -/
theorem exec_eor : exec (.eor src1 shamt src2 dest) s = .next (s.registerOp aluEor src1 src2 dest) := rfl

/-- R129, by the second discriminator: the effect of the first. -/
theorem exec_eor2 : exec (.eor2 src1 shamt src2 dest) s = .next (s.registerOp aluEor src1 src2 dest) := rfl

/-! ### The words of the two discriminators of EOR -/

/-- R64: the first discriminator. -/
theorem decode_eorWord : decode (wordR 0b11001010000#11 src1 shamt src2 dest) = .eor src1 shamt src2 dest :=
  decodeOfEncodeGivesInstruction (.eor src1 shamt src2 dest) rfl

/-- R64: the second discriminator. -/
theorem decode_eor2Word : decode (wordR 0b11101010000#11 src1 shamt src2 dest) = .eor2 src1 shamt src2 dest :=
  decodeOfEncodeGivesInstruction (.eor2 src1 shamt src2 dest) rfl

end

/-! ### The statements -/

/-- Settles O50: the result is the unit's on the two old registers, with `src1` first. -/
theorem registerArithmeticIsModulo : Obligations.RegisterArithmeticIsModulo := by
  intro src1 shamt src2 dest s
  constructor
  · refine ⟨_, exec_add src1 shamt src2 dest s, s.registerOp_onlyRegWritten _ src1 src2 dest, ?_⟩
    rw [State.registerOp_readReg_dest, toNat_aluAdd]
  · refine ⟨_, exec_sub src1 shamt src2 dest s, s.registerOp_onlyRegWritten _ src1 src2 dest, ?_⟩
    rw [State.registerOp_readReg_dest, toNat_aluSub]

/-- Settles O51: the word is the encoder's, and the result is the unit's conjunction of the two old registers. -/
theorem andIsBitwise : Obligations.AndIsBitwise := by
  refine fun src1 shamt src2 dest => ⟨decodeOfEncodeGivesInstruction (.and src1 shamt src2 dest) rfl, fun s => ?_⟩
  refine ⟨_, exec_and src1 shamt src2 dest s, s.registerOp_onlyRegWritten _ src1 src2 dest, fun k _ => ?_⟩
  rw [State.registerOp_readReg_dest, getLsbD_aluAnd_iff]

/-- Settles O52: the word is the encoder's, and the result is the unit's disjunction of the two old registers. -/
theorem orrIsBitwise : Obligations.OrrIsBitwise := by
  refine fun src1 shamt src2 dest => ⟨decodeOfEncodeGivesInstruction (.orr src1 shamt src2 dest) rfl, fun s => ?_⟩
  refine ⟨_, exec_orr src1 shamt src2 dest s, s.registerOp_onlyRegWritten _ src1 src2 dest, fun k _ => ?_⟩
  rw [State.registerOp_readReg_dest, getLsbD_aluOrr_iff]

/-- Settles O53: the two words decode to two constructors of one effect, the unit's exclusive or of the two old
registers. -/
theorem eorIsBitwiseUnderBothPatterns : Obligations.EorIsBitwiseUnderBothPatterns := by
  intro src1 shamt src2 dest s
  have heor := exec_eor src1 shamt src2 dest s
  have heor2 := exec_eor2 src1 shamt src2 dest s
  rw [decode_eorWord, decode_eor2Word]
  refine ⟨_, heor, heor2, heor, heor2, s.registerOp_onlyRegWritten _ src1 src2 dest, fun k _ => ?_⟩
  rw [State.registerOp_readReg_dest, getLsbD_aluEor_iff]

end Sys2Proof.Machine
end

section
/-! LSL, LSR and ASR (47_shift.md): the shift functions as arithmetic, their limits for large amounts, and the
effect. -/

namespace Sys2Proof.Machine

/-! ### The shift functions (R138) -/

section
variable (v : Word) (amount : BitVec 6)

theorem toNat_shl : (shl v amount).toNat = v.toNat * 2 ^ amount.toNat % 2 ^ 32 := by
  rw [shl, BitVec.toNat_shiftLeft, Nat.shiftLeft_eq]

theorem toNat_lshr : (lshr v amount).toNat = v.toNat / 2 ^ amount.toNat := by
  rw [lshr, BitVec.toNat_ushiftRight, Nat.shiftRight_eq_div_pow]

theorem toInt_ashr : (ashr v amount).toInt = v.toInt / 2 ^ amount.toNat := by
  rw [ashr, BitVec.toInt_sshiftRight, Int.shiftRight_eq_div_pow]
  norm_cast

end

/-- From an amount of 31 on, every bit of the result is the sign. -/
theorem getLsbD_ashr {v : Word} {amount : BitVec 6} (h : 31 ≤ amount.toNat) {k : Nat} (hk : k < 32) :
    (ashr v amount).getLsbD k = v.getLsbD 31 := by
  rw [ashr, BitVec.getLsbD_sshiftRight, decide_eq_false (by omega), Bool.not_false, Bool.true_and]
  split
  next hlt =>
    have hbit : amount.toNat + k = 31 := by omega
    rw [hbit]
  next => exact BitVec.msb_eq_getLsbD_last v

theorem ashr_eq_sign {v : Word} {amount : BitVec 6} (h : 31 ≤ amount.toNat) :
    ashr v amount = if v.getLsbD 31 then 0xFFFFFFFF#32 else 0#32 := by
  refine BitVec.eq_of_getLsbD_eq fun k hk => ?_
  have hones : (0xFFFFFFFF#32).getLsbD k = true := (BitVec.getLsbD_allOnes (v := 32)).trans (decide_eq_true hk)
  rw [getLsbD_ashr h hk]
  split
  next hsign => rw [hsign, hones]
  next hsign => rw [Bool.eq_false_of_not_eq_true hsign, BitVec.getLsbD_zero]

/-- Settles O54: the library's arithmetic readings of the three shifts, and their limits bit by bit. -/
theorem shiftFunctionsAreTheirFormulas : Obligations.ShiftFunctionsAreTheirFormulas := fun v amount =>
  ⟨toNat_shl v amount, toNat_lshr v amount, toInt_ashr v amount,
    fun h => ⟨BitVec.shiftLeft_eq_zero h, BitVec.ushiftRight_eq_zero h⟩, ashr_eq_sign⟩

/-! ### The effect -/

section
variable (src1 : RegIdx) (shamt : BitVec 6) (src2 dest : RegIdx) (s : State)

/-- R135. -/
theorem exec_lsl : exec (.lsl src1 shamt src2 dest) s = .next (s.shiftOp shl shamt src2 dest) := rfl

/-- R136. -/
theorem exec_lsr : exec (.lsr src1 shamt src2 dest) s = .next (s.shiftOp lshr shamt src2 dest) := rfl

/-- R137. -/
theorem exec_asr : exec (.asr src1 shamt src2 dest) s = .next (s.shiftOp ashr shamt src2 dest) := rfl

end

/-- Settles O55: the result is the shift function's on the old register and the amount. -/
theorem shiftsWriteShiftedRegister : Obligations.ShiftsWriteShiftedRegister := by
  intro src1 shamt src2 dest s
  refine ⟨?lsl, ?lsr, ?asr⟩
  case lsl =>
    refine ⟨_, exec_lsl src1 shamt src2 dest s, s.shiftOp_onlyRegWritten _ shamt src2 dest, ?_⟩
    rw [State.shiftOp_readReg_dest, toNat_shl]
  case lsr =>
    refine ⟨_, exec_lsr src1 shamt src2 dest s, s.shiftOp_onlyRegWritten _ shamt src2 dest, ?_⟩
    rw [State.shiftOp_readReg_dest, toNat_lshr]
  case asr =>
    refine ⟨_, exec_asr src1 shamt src2 dest s, s.shiftOp_onlyRegWritten _ shamt src2 dest, ?_⟩
    rw [State.shiftOp_readReg_dest, toInt_ashr]

end Sys2Proof.Machine
end

section
/-! No exceptions (60_exceptions.md): every word completes, no step is refused, and Halted is terminal. -/

namespace Sys2Proof.Machine

/-- 40_execution_step.md R81, R88, R89: a step that is not enabled ends in one of the three faults. -/
theorem step_fault_of_not_enabled {s : State} (h : ¬ s.Enabled) : ∃ f, step s = .fault f := by
  by_cases hr : s.runState = .halted
  · exact ⟨_, step_of_halted hr⟩
  cases hf : s.fetch s.pc with
  | none => exact ⟨_, step_of_unmapped hr hf⟩
  | some w =>
    have hw : s.watchdog = some 0 := not_not.mp fun hw => h ⟨hr, State.mapped_of_fetch hf, hw⟩
    exact ⟨_, step_of_spent hr hf hw⟩

theorem step_ne_refused (s : State) (r : Refusal) : step s ≠ .refused r := by
  by_cases h : s.Enabled
  · obtain ⟨t, ht⟩ := (step_next_iff_enabled s).mpr h
    simp [ht]
  · obtain ⟨f, hf⟩ := step_fault_of_not_enabled h
    simp [hf]

/-- Settles O23: where a step is enabled it answers a next state, and elsewhere a fault. -/
theorem everyWordCompletes : Obligations.EveryWordCompletes := by
  refine ⟨fun w s => ?_, fun s h => ?_, step_ne_refused⟩
  · obtain ⟨t, ht, -⟩ := exec_effect (decode w) s
    exact ⟨t, ht⟩
  · obtain ⟨t, ht⟩ := (step_next_iff_enabled s).mpr h
    exact ⟨t, fun o => by rw [ht, eq_comm]⟩

/-! ### The halt latch (R156) -/

theorem RunState.afterBreak_ne_running (r : RunState) : r.afterBreak ≠ .running := by
  cases r <;> decide

theorem exec_runState_of_halted {i : Instr} {s t : State} (h : exec i s = .next t) (hs : s.runState = .halted) :
    t.runState = .halted := by
  rw [exec_runState h, hs]
  exact ite_self _

theorem exec_runState_ne_running {i : Instr} {s t : State} (h : exec i s = .next t) (hs : s.runState ≠ .running) :
    t.runState ≠ .running := by
  rw [exec_runState h]
  split
  · exact s.runState.afterBreak_ne_running
  · exact hs

theorem step_runState_ne_running {s t : State} (h : step s = .next t) (hs : s.runState ≠ .running) :
    t.runState ≠ .running := by
  obtain ⟨w, u, -, -, -, hu, -, rfl⟩ := step_next_cases h
  rw [retire_runState]
  exact exec_runState_ne_running hu hs

/-- Settles O39: what every instruction does to the latch, every step and every run does. -/
theorem haltedIsTerminalAndLatchNeverDisarmed : Obligations.HaltedIsTerminalAndLatchNeverDisarmed := by
  refine ⟨fun s t hs => by simp [step_of_halted hs], fun i s t h => ⟨exec_runState_of_halted h, fun hs => ?_⟩,
    fun k s t h => ?_, State.load_runState⟩
  · exact exec_runState_ne_running h (by simp [hs])
  · exact run_keeps (P := fun s t => s.runState ≠ .running → t.runState ≠ .running) (fun _ => id)
      (fun _ _ _ hsu hut hs => hut (hsu hs)) (fun _ _ => step_runState_ne_running) h

end Sys2Proof.Machine
end

section
/-! The data segment loader (70_reset_and_hazards.md R172, R173): its scan line by line, and what stands in a stream
after one line more. -/

namespace Sys2Proof.Machine

/-! ### One line of the scan -/

/-- R172, field by field: a sentinel turns the flag and, where it sets it, gives the base; any other line is stored
where the flag is set. -/
theorem LoaderState.scanLine_eq (l : LoaderState) (k : Nat) (w : Word) :
    l.scanLine k w =
      { inData   := l.inData ^^ decide (w = Config.breakWord)
        dataBase := if w = Config.breakWord ∧ l.inData = false then some (dataAddr (k + 1)) else l.dataBase
        dmem     := if w ≠ Config.breakWord ∧ l.inData = true then memWrite l.dmem (dataAddr k) w else l.dmem
        stored   := l.stored || (decide (w ≠ Config.breakWord) && l.inData) } := by
  obtain ⟨inData, dataBase, dmem, stored⟩ := l
  by_cases hw : w = Config.breakWord
  · cases inData <;> simp [LoaderState.scanLine, hw]
  · cases inData <;> simp [LoaderState.scanLine, hw]

/-! ### The scan of a stream with one line more -/

theorem LoaderState.scan_append (l : LoaderState) (k : Nat) (ws vs : List Word) :
    l.scan k (ws ++ vs) = (l.scan k ws).scan (k + ws.length) vs := by
  induction ws generalizing l k with
  | nil => rfl
  | cons w ws ih =>
    rw [List.cons_append, LoaderState.scan, LoaderState.scan, ih, List.length_cons, Nat.add_right_comm, Nat.add_assoc]

theorem scanStream_nil : scanStream [] = LoaderState.start := rfl

theorem scanStream_concat (ws : List Word) (w : Word) :
    scanStream (ws ++ [w]) = (scanStream ws).scanLine ws.length w := by
  rw [scanStream, LoaderState.scan_append, Nat.zero_add]
  rfl

theorem sentinelsIn_eq_count (ws : List Word) : sentinelsIn ws = ws.count Config.breakWord := by
  induction ws with
  | nil => rfl
  | cons w ws ih => simp only [sentinelsIn, ih, List.count_cons, beq_iff_eq, Nat.add_comm]

theorem sentinelsIn_concat (ws : List Word) (w : Word) :
    sentinelsIn (ws ++ [w]) = sentinelsIn ws + if w = Config.breakWord then 1 else 0 := by
  simp only [sentinelsIn_eq_count, List.count_append, List.count_singleton, beq_iff_eq]

theorem mem_of_sentinelsIn_odd {ws : List Word} (h : sentinelsIn ws % 2 = 1) : Config.breakWord ∈ ws := by
  rw [sentinelsIn_eq_count] at h
  exact List.count_pos_iff.mp (by omega)

/-- A line of a stream, with a property of the lines before it, when one line more stands at the end. -/
theorem line_concat_iff (P : List Word → Prop) (ws : List Word) (w : Word) (k : Nat) (v : Word) :
    ((ws ++ [w])[k]? = some v ∧ P ((ws ++ [w]).take k)) ↔
      (ws[k]? = some v ∧ P (ws.take k)) ∨ (k = ws.length ∧ v = w ∧ P ws) := by
  obtain hlt | rfl | hgt := Nat.lt_trichotomy k ws.length
  · rw [List.getElem?_append_left hlt, List.take_append_of_le_length hlt.le]
    simp [hlt.ne]
  · simp [eq_comm]
  · have hnone : (ws ++ [w])[k]? = none := List.getElem?_eq_none (by simpa using hgt)
    simp [hnone, List.getElem?_eq_none hgt.le, hgt.ne']

theorem inDataSegment_concat_iff (ws : List Word) (w : Word) (k : Nat) (v : Word) :
    InDataSegment (ws ++ [w]) k v ↔ InDataSegment ws k v ∨
      (k = ws.length ∧ v = w ∧ v ≠ Config.breakWord ∧ sentinelsIn ws % 2 = 1) :=
  line_concat_iff (fun before => v ≠ Config.breakWord ∧ sentinelsIn before % 2 = 1) ws w k v

theorem opensSegment_concat_iff (ws : List Word) (w : Word) (k : Nat) :
    OpensSegment (ws ++ [w]) k ↔ OpensSegment ws k ∨
      (k = ws.length ∧ Config.breakWord = w ∧ sentinelsIn ws % 2 = 0) :=
  line_concat_iff (fun before => sentinelsIn before % 2 = 0) ws w k Config.breakWord

theorem InDataSegment.lt_length {ws : List Word} {k : Nat} {v : Word} (h : InDataSegment ws k v) : k < ws.length :=
  (List.getElem?_eq_some_iff.mp h.1).1

theorem OpensSegment.lt_length {ws : List Word} {k : Nat} (h : OpensSegment ws k) : k < ws.length :=
  (List.getElem?_eq_some_iff.mp h.1).1

/-! ### The scan's flag and the other results, by the parity of the sentinels -/

/-- One sentinel more turns the parity. -/
theorem decide_odd_add (n : Nat) (p : Prop) [Decidable p] :
    decide ((n + if p then 1 else 0) % 2 = 1) = (decide (n % 2 = 1) ^^ decide p) := by
  have hflip : (n + 1) % 2 = 1 ↔ ¬ n % 2 = 1 := by omega
  by_cases hp : p
  · rw [if_pos hp, decide_eq_true hp, Bool.xor_true, decide_eq_decide.mpr hflip, decide_not]
  · rw [if_neg hp, decide_eq_false hp, Bool.xor_false, Nat.add_zero]

/-- R172: after the scan the flag is set exactly when the sentinels are odd in number. -/
theorem scanStream_inData (ws : List Word) : (scanStream ws).inData = decide (sentinelsIn ws % 2 = 1) := by
  induction ws using List.reverseRecOn with
  | nil => rfl
  | append_singleton ws w ih =>
    rw [scanStream_concat, LoaderState.scanLine_eq, ih, sentinelsIn_concat, decide_odd_add]

theorem scanStream_inData_iff (ws : List Word) : (scanStream ws).inData = true ↔ sentinelsIn ws % 2 = 1 := by
  rw [scanStream_inData, decide_eq_true_iff]

theorem scanStream_outside_iff (ws : List Word) : (scanStream ws).inData = false ↔ sentinelsIn ws % 2 = 0 := by
  rw [scanStream_inData, decide_eq_false_iff_not, Nat.mod_two_not_eq_one]

theorem scanStream_concat_dmem (ws : List Word) (w : Word) :
    (scanStream (ws ++ [w])).dmem =
      if w ≠ Config.breakWord ∧ sentinelsIn ws % 2 = 1
      then memWrite (scanStream ws).dmem (dataAddr ws.length) w else (scanStream ws).dmem := by
  simp only [scanStream_concat, LoaderState.scanLine_eq, scanStream_inData_iff]

theorem scanStream_concat_dataBase (ws : List Word) (w : Word) :
    (scanStream (ws ++ [w])).dataBase =
      if w = Config.breakWord ∧ sentinelsIn ws % 2 = 0
      then some (dataAddr (ws.length + 1)) else (scanStream ws).dataBase := by
  simp only [scanStream_concat, LoaderState.scanLine_eq, scanStream_outside_iff]

theorem scanStream_concat_stored (ws : List Word) (w : Word) :
    (scanStream (ws ++ [w])).stored = true ↔
      (scanStream ws).stored = true ∨ w ≠ Config.breakWord ∧ sentinelsIn ws % 2 = 1 := by
  simp [scanStream_concat, LoaderState.scanLine_eq, scanStream_inData_iff]

/-! ### The stored words -/

/-- 20_memory.md R30: a write and what every address reads as after it. -/
theorem memRead_memWrite_eq_some_iff (m : Memory) (a b u v : Word) :
    memRead (memWrite m a u) b = some v ↔ (b = a ∧ v = u) ∨ (¬b = a ∧ memRead m b = some v) := by
  by_cases hb : b = a
  · simp [hb, eq_comm]
  · simp [hb, memRead_memWrite_ne m u hb]

/-- Decision D13, within the bound on the stream (00_scope.md R4), where no address wraps. -/
theorem eq_dataAddr_iff {a : Word} {k : Nat} (hk : 96 + 4 * k < 2 ^ 32) : a = dataAddr k ↔ a.toNat = 96 + 4 * k := by
  rw [dataAddr, lineAddr, BitVec.toNat_eq, BitVec.toNat_ofNat, Nat.mod_eq_of_lt hk]

/-- Settles O13, by induction from the last line of the stream back: the line adds its own address, if any, which is
none of those before it. -/
theorem loaderStoresExactlyDataSegments : Obligations.LoaderStoresExactlyDataSegments := by
  intro stream hfits a v
  rw [State.load_dmem]
  induction stream using List.reverseRecOn with
  | nil => simp [scanStream_nil, LoaderState.start, InDataSegment]
  | append_singleton ws w ih =>
    rw [List.length_append, List.length_singleton] at hfits
    specialize ih (by omega)
    rw [scanStream_concat_dmem]
    simp only [inDataSegment_concat_iff]
    split
    next hstored =>
      rw [memRead_memWrite_eq_some_iff, ih, eq_dataAddr_iff (by omega)]
      constructor
      · rintro (⟨ha, rfl⟩ | ⟨-, k, hk, ha⟩)
        · exact ⟨ws.length, .inr ⟨rfl, rfl, hstored⟩, ha⟩
        · exact ⟨k, .inl hk, ha⟩
      · rintro ⟨k, hk | ⟨rfl, rfl, -⟩, ha⟩
        · have hlt := hk.lt_length
          exact .inr ⟨by omega, k, hk, ha⟩
        · exact .inl ⟨ha, rfl⟩
    next hkept =>
      rw [ih]
      constructor
      · rintro ⟨k, hk, ha⟩
        exact ⟨k, .inl hk, ha⟩
      · rintro ⟨k, hk | ⟨-, rfl, hstored⟩, ha⟩
        · exact ⟨k, hk, ha⟩
        · exact absurd hstored hkept

/-! ### DATA_BASE and HAS_DATA -/

/-- Decision D14: the last sentinel that opens a segment gives the base. -/
theorem dataBase_of_lastOpening {stream : List Word} {k : Nat} (hopens : OpensSegment stream k)
    (hlast : ∀ j, k < j → ¬ OpensSegment stream j) : (scanStream stream).dataBase = some (dataAddr (k + 1)) := by
  induction stream using List.reverseRecOn with
  | nil => exact absurd hopens.lt_length k.not_lt_zero
  | append_singleton ws w ih =>
    rw [scanStream_concat_dataBase]
    simp only [opensSegment_concat_iff] at hopens hlast
    split
    next hnew =>
      obtain ⟨rfl, heven⟩ := hnew
      obtain hk | ⟨rfl, -⟩ := hopens
      · exact absurd (.inr ⟨rfl, rfl, heven⟩) (hlast ws.length hk.lt_length)
      · rfl
    next hold =>
      obtain hk | ⟨-, rfl, heven⟩ := hopens
      · exact ih hk fun j hj hopen => hlast j hj (.inl hopen)
      · exact absurd ⟨rfl, heven⟩ hold

/-- R173: the first sentinel of a stream opens a segment. -/
theorem dataBase_eq_none_iff (stream : List Word) :
    (scanStream stream).dataBase = none ↔ Config.breakWord ∉ stream := by
  induction stream using List.reverseRecOn with
  | nil => simp [scanStream_nil, LoaderState.start]
  | append_singleton ws w ih =>
    rw [scanStream_concat_dataBase, List.mem_append, List.mem_singleton]
    split
    next hnew => simp [hnew.1]
    next hold =>
      rw [ih, not_or]
      refine ⟨fun hnot => ⟨hnot, fun hw => hnot ?_⟩, fun hnot => hnot.1⟩
      have hodd : sentinelsIn ws % 2 = 1 := Nat.mod_two_ne_zero.mp fun heven => hold ⟨hw.symm, heven⟩
      exact mem_of_sentinelsIn_odd hodd

/-- Decision D15. -/
theorem stored_iff (stream : List Word) : (scanStream stream).stored = true ↔ ∃ k v, InDataSegment stream k v := by
  induction stream using List.reverseRecOn with
  | nil => simp [scanStream_nil, LoaderState.start, InDataSegment]
  | append_singleton ws w ih =>
    rw [scanStream_concat_stored, ih]
    simp only [inDataSegment_concat_iff]
    constructor
    · rintro (⟨k, v, h⟩ | hnew)
      · exact ⟨k, v, .inl h⟩
      · exact ⟨ws.length, w, .inr ⟨rfl, rfl, hnew⟩⟩
    · rintro ⟨k, v, h | ⟨-, rfl, hnew⟩⟩
      · exact .inl ⟨k, v, h⟩
      · exact .inr hnew

/-- Settles O14. -/
theorem loaderSetsDataBaseAndHasData : Obligations.LoaderSetsDataBaseAndHasData := fun stream =>
  ⟨fun _ => dataBase_of_lastOpening, dataBase_eq_none_iff stream, stored_iff stream⟩

end Sys2Proof.Machine
end

section
/-! A stream from its lines of text (70_reset_and_hazards.md R171, R174): loaded, or refused by name. -/

namespace Sys2Proof.Machine

theorem wordsOfLines_cons_of_malformed {l : Line} (h : wordOfLine l = none) (inData : Bool) (ls : List Line) :
    wordsOfLines inData (l :: ls) = .error (if inData then .dataSegmentError else .malformedField) := by
  rw [wordsOfLines, h]

theorem wordsOfLines_cons_of_word {l : Line} {w : Word} (h : wordOfLine l = some w) (inData : Bool) (ls : List Line) :
    wordsOfLines inData (l :: ls) =
      (wordsOfLines (inData ^^ decide (w = Config.breakWord)) ls).map (w :: ·) := by
  have hflag : (if w = Config.breakWord then !inData else inData) = (inData ^^ decide (w = Config.breakWord)) := by
    split <;> simp [*]
  simp only [wordsOfLines, h, hflag]
  cases wordsOfLines (inData ^^ decide (w = Config.breakWord)) ls <;> rfl

/-- Lines that are words are taken one by one, each sentinel turning the flag; what stands after them is then read with
the flag they leave. -/
theorem wordsOfLines_append {words : List Word} {before : List Line}
    (h : before.map wordOfLine = words.map some) (inData : Bool) (rest : List Line) :
    wordsOfLines inData (before ++ rest) =
      (wordsOfLines (inData ^^ decide (sentinelsIn words % 2 = 1)) rest).map (words ++ ·) := by
  induction words generalizing before inData with
  | nil =>
    obtain rfl : before = [] := List.map_eq_nil_iff.mp h
    cases hrest : wordsOfLines inData rest <;> simp [sentinelsIn, hrest, Except.map]
  | cons w ws ih =>
    obtain ⟨l, ls, rfl, hl, hls⟩ := List.map_eq_cons_iff.mp h
    have hflag : (inData ^^ decide (w = Config.breakWord) ^^ decide (sentinelsIn ws % 2 = 1)) =
        (inData ^^ decide (sentinelsIn (w :: ws) % 2 = 1)) := by
      rw [sentinelsIn, Nat.add_comm, decide_odd_add, Bool.xor_assoc, Bool.xor_comm (decide (w = _))]
    rw [List.cons_append, wordsOfLines_cons_of_word hl, ih hls, hflag]
    cases wordsOfLines (inData ^^ decide (sentinelsIn (w :: ws) % 2 = 1)) rest <;> rfl

theorem wordsOfLines_of_words {lines : List Line} {stream : List Word} (h : lines.map wordOfLine = stream.map some)
    (inData : Bool) : wordsOfLines inData lines = .ok stream := by
  have happend := wordsOfLines_append h inData []
  rw [List.append_nil] at happend
  simp [happend, wordsOfLines, Except.map]

theorem loadLines_of_words {lines : List Line} {stream : List Word} (h : wordsOfLines false lines = .ok stream)
    (hfits : 96 + 4 * stream.length < 2 ^ 32) : loadLines lines = .next (State.load stream) := by
  simp only [loadLines, h]
  exact if_pos hfits

theorem loadLines_of_error {lines : List Line} {r : Refusal} (h : wordsOfLines false lines = .error r) :
    loadLines lines = .refused r := by
  simp only [loadLines, h]

/-- Settles O15: the flag at the first malformed line is the parity of the sentinels before it. -/
theorem streamIsLoadedOrRefusedByName : Obligations.StreamIsLoadedOrRefusedByName := by
  refine ⟨fun lines stream h hfits => loadLines_of_words (wordsOfLines_of_words h false) hfits,
    fun before after bad words h hbad => loadLines_of_error ?_⟩
  rw [wordsOfLines_append h, wordsOfLines_cons_of_malformed hbad]
  simp [Except.map]

end Sys2Proof.Machine
end

section
/-! The state before the first step (70_reset_and_hazards.md R170): reset values and the invariant of a run. -/

namespace Sys2Proof.Machine

/-- Settles O12. -/
theorem loadedStateHasResetValues : Obligations.LoadedStateHasResetValues :=
  ⟨State.load_nil, fun stream => ⟨State.load_readReg stream, State.load_pc stream, State.load_runState stream,
    State.load_cycle stream, State.load_imem stream, State.load_watchdog stream, rfl⟩⟩

theorem LoaderState.scanLine_dmem_wf (l : LoaderState) (k : Nat) (w : Word) (h : l.dmem.wf) :
    (l.scanLine k w).dmem.wf := by
  rw [LoaderState.scanLine_eq]
  dsimp only
  split
  · exact memWrite_wf h _ w
  · exact h

/-- The loader makes a memory in canonical form: it starts from the empty one and only writes to it. -/
theorem scanStream_dmem_wf (stream : List Word) : (scanStream stream).dmem.wf := by
  have hstart : LoaderState.start.dmem.wf := by decide
  exact LoaderState.scan_keeps (P := fun l => l.dmem.wf) LoaderState.scanLine_dmem_wf hstart 0 stream

/-- Settles O17: no step has been taken, so each field is the loader's or the reset value. -/
theorem loadedStreamMeetsInvariant : Obligations.LoadedStreamMeetsInvariant := by
  intro stream maxSteps hfits
  exact
    { streamFits := hfits
      pcOnLine := ⟨0, Nat.zero_le _, rfl⟩
      memWf := scanStream_dmem_wf stream
      cycleCounts := rfl
      latchCounts := rfl
      dataBaseLoaded := rfl
      hasDataLoaded := rfl
      loadedPresent := fun _ => id }

/-- Settles O16: reset is the load of no lines. -/
theorem resetMeetsInvariant : Obligations.ResetMeetsInvariant :=
  loadedStreamMeetsInvariant [] none (by decide)

end Sys2Proof.Machine
end

section
/-! The words of 95_test_vectors.md 2.1. -/

namespace Sys2Proof

/-- Settles O1. -/
theorem writtenWordsDecode : Obligations.WrittenWordsDecode := by
  unfold Obligations.WrittenWordsDecode
  decide

end Sys2Proof
end
